-- ==== Sys2Proof/Word.lean ====
section
/-!
DEFINITION. The value types of the core: 16-bit words, register indices, 8-bit fields and the
5-bit selector (spec/00_scope.md R8, R10, R13).
-/

namespace Sys2Proof

/-- A 16-bit pattern: a register, a data word, an instruction word, or the pc, whose width
PC_WIDTH the spec takes as 16 (R8, R10; D3, log entry 4). -/
abbrev Word := BitVec 16

/-- A byte: the immediate of ldl and ldh, and one half of a word of the Data Store. -/
abbrev Byte := BitVec 8

/-- A 3-bit register index; every pattern names one of the 8 registers (R62). -/
abbrev RegIdx := BitVec 3

/-- The 8-bit address field: a Data Store index for ld and st, a Program Store index for je and
jmp (R40, R62). -/
abbrev Addr8 := BitVec 8

/-- The 5-bit opcode field of an instruction word (R61). -/
abbrev Selector := BitVec 5

end Sys2Proof
end

