-- ==== Sys2Proof/Syntax.lean ====
section
/-!
DEFINITION. The instructions, one constructor per row of spec/opcode_table.json, each carrying
exactly the operands of its shape (spec/30_encoding.md R63, R64). The operand types are the fields'
own widths, so an operand out of range cannot be written.
-/

namespace Sys2Proof

/-- The Operation type of R64. `ra` and `rb` are register indices, `imm8` an unsigned byte, `addr8` an
unsigned index. -/
inductive Instr where
  | mov (ra rb : RegIdx)
  | add (ra rb : RegIdx)
  | sub (ra rb : RegIdx)
  | and (ra rb : RegIdx)
  | or (ra rb : RegIdx)
  | sl (ra : RegIdx)
  | sr (ra : RegIdx)
  | sra (ra : RegIdx)
  | ldl (ra : RegIdx) (imm8 : Byte)
  | ldh (ra : RegIdx) (imm8 : Byte)
  | cmp (ra rb : RegIdx)
  | je (addr8 : Addr8)
  | jmp (addr8 : Addr8)
  | ld (ra : RegIdx) (addr8 : Addr8)
  | st (ra : RegIdx) (addr8 : Addr8)
  | hlt
  deriving DecidableEq, Repr

end Sys2Proof
end

