-- ==== Sys2Proof/Decode.lean ====
section
/-!
DEFINITION. The instruction decoder and the encoder (spec/30_encoding.md): the fields of a word (R61,
R62), the operand shapes (R63), OPCODE_MAP (R66), decode (R67), encode (R72), the keep masks (R74), the
conveniences li and nop (R75), and the host's decodeTableWord.
-/

namespace Sys2Proof

/-- The 16 operations by name, without operands: what OPCODE_MAP numbers (R66). -/
inductive Opcode where
  | mov | add | sub | and | or | sl | sr | sra | ldl | ldh | cmp | je | jmp | ld | st | hlt
  deriving DecidableEq, Repr

/-- The six operand shapes (R63). -/
inductive Shape where
  | rr | r | ri | a | ra | n
  deriving DecidableEq, Repr

/-- Why a word is no Operation: "unknown operation code", with the selector that is not defined (R67,
R142). Raised by the decoder; the cycle turns it into the FAULTED state (R85). -/
inductive DecodeError where
  | unknownOperationCode (sel : Selector)
  deriving DecidableEq, Repr

/-! ### Fields of a word (R61, R62) -/

/-- `ir[15:11]`. -/
def fieldSel (ir : Word) : Selector := ir.extractLsb' 11 5

/-- `ir[10:8]`, the register named A. -/
def fieldRa (ir : Word) : RegIdx := ir.extractLsb' 8 3

/-- `ir[7:5]`, the register named B. -/
def fieldRb (ir : Word) : RegIdx := ir.extractLsb' 5 3

/-- `ir[7:0]`: imm8 and addr8, two names for the same bits. -/
def fieldImm8 (ir : Word) : BitVec 8 := ir.extractLsb' 0 8

/-! ### OPCODE_MAP (R66) -/

/-- OPCODE_MAP: the selector of each operation, in the order of R66's table. The numbers are the spec's
decision D1 (DESIGN CHOICE, unsafe, log entry 5). -/
def Opcode.selector : Opcode → Selector
  | .mov => 0  | .add => 1  | .sub => 2  | .and => 3
  | .or  => 4  | .sl  => 5  | .sr  => 6  | .sra => 7
  | .ldl => 8  | .ldh => 9  | .cmp => 10 | .je  => 11
  | .jmp => 12 | .ld  => 13 | .st  => 14 | .hlt => 15

/-- All operations, in the order of R66's table. -/
def Opcode.all : List Opcode :=
  [.mov, .add, .sub, .and, .or, .sl, .sr, .sra, .ldl, .ldh, .cmp, .je, .jmp, .ld, .st, .hlt]

/-- The inverse of OPCODE_MAP: the operation a selector names, none for an undefined one (R66, R69). -/
def opcodeOf (sel : Selector) : Option Opcode :=
  Opcode.all.find? fun o => o.selector == sel

/-! ### Shapes (R63) and keep masks (R74) -/

/-- Each operation has exactly one shape (R63). -/
def Opcode.shape : Opcode → Shape
  | .mov | .add | .sub | .and | .or | .cmp => .rr
  | .sl | .sr | .sra => .r
  | .ldl | .ldh => .ri
  | .je | .jmp => .a
  | .ld | .st => .ra
  | .hlt => .n

/-- The bits of a word that a shape uses; the others are ignored (R63, R74). -/
def Shape.keepMask : Shape → Word
  | .rr => 0xFFE0
  | .r  => 0xFF00
  | .ri => 0xFFFF
  | .a  => 0xF8FF
  | .ra => 0xFFFF
  | .n  => 0xF800

/-- The operation an instruction is an instance of. -/
def Instr.opcode : Instr → Opcode
  | .mov _ _ => .mov
  | .add _ _ => .add
  | .sub _ _ => .sub
  | .and _ _ => .and
  | .or _ _ => .or
  | .sl _ => .sl
  | .sr _ => .sr
  | .sra _ => .sra
  | .ldl _ _ => .ldl
  | .ldh _ _ => .ldh
  | .cmp _ _ => .cmp
  | .je _ => .je
  | .jmp _ => .jmp
  | .ld _ _ => .ld
  | .st _ _ => .st
  | .hlt => .hlt

/-! ### The decoder (R67, R68, R69) -/

/-- The Operation of a defined selector, with the operands its shape takes from the word (R67). Ignored
bits are not looked at (R68). -/
def operands (o : Opcode) (ir : Word) : Instr :=
  match o with
  | .mov => .mov (fieldRa ir) (fieldRb ir)
  | .add => .add (fieldRa ir) (fieldRb ir)
  | .sub => .sub (fieldRa ir) (fieldRb ir)
  | .and => .and (fieldRa ir) (fieldRb ir)
  | .or  => .or (fieldRa ir) (fieldRb ir)
  | .sl  => .sl (fieldRa ir)
  | .sr  => .sr (fieldRa ir)
  | .sra => .sra (fieldRa ir)
  | .ldl => .ldl (fieldRa ir) (fieldImm8 ir)
  | .ldh => .ldh (fieldRa ir) (fieldImm8 ir)
  | .cmp => .cmp (fieldRa ir) (fieldRb ir)
  | .je  => .je (fieldImm8 ir)
  | .jmp => .jmp (fieldImm8 ir)
  | .ld  => .ld (fieldRa ir) (fieldImm8 ir)
  | .st  => .st (fieldRa ir) (fieldImm8 ir)
  | .hlt => .hlt

/-- The decoder: a total function from a word to an Operation or a decode fault, decided by the selector
alone (R67, R68). -/
def decode (ir : Word) : Except DecodeError Instr :=
  match opcodeOf (fieldSel ir) with
  | some o => .ok (operands o ir)
  | none => .error (.unknownOperationCode (fieldSel ir))

/-! ### The encoder (R72) -/

/-- `OPCODE_MAP(op) << 11` (R72). -/
def encSel (o : Opcode) : Word := o.selector.setWidth 16 <<< 11

/-- `a << 8`, register A's place (R72). -/
def encRa (a : RegIdx) : Word := a.setWidth 16 <<< 8

/-- `b << 5`, register B's place (R72). -/
def encRb (b : RegIdx) : Word := b.setWidth 16 <<< 5

/-- The canonical word of an instruction: its ignored bits are 0 (R72; D14). -/
def encode (i : Instr) : Word :=
  match i with
  | .mov a b => encSel .mov ||| encRa a ||| encRb b
  | .add a b => encSel .add ||| encRa a ||| encRb b
  | .sub a b => encSel .sub ||| encRa a ||| encRb b
  | .and a b => encSel .and ||| encRa a ||| encRb b
  | .or a b  => encSel .or ||| encRa a ||| encRb b
  | .sl a    => encSel .sl ||| encRa a
  | .sr a    => encSel .sr ||| encRa a
  | .sra a   => encSel .sra ||| encRa a
  | .ldl a k => encSel .ldl ||| encRa a ||| k.setWidth 16
  | .ldh a k => encSel .ldh ||| encRa a ||| k.setWidth 16
  | .cmp a b => encSel .cmp ||| encRa a ||| encRb b
  | .je k    => encSel .je ||| k.setWidth 16
  | .jmp k   => encSel .jmp ||| k.setWidth 16
  | .ld a k  => encSel .ld ||| encRa a ||| k.setWidth 16
  | .st a k  => encSel .st ||| encRa a ||| k.setWidth 16
  | .hlt     => encSel .hlt

/-! ### The spec's conveniences (R75; D13): no encoding of their own -/

/-- `nop`, which is `mov r0, r0` (R75). -/
def pseudoNop : Instr := .mov 0 0

/-- `li rA, imm16`: ldh of the high byte, then ldl of the low byte (R75). -/
def pseudoLi (ra : RegIdx) (imm16 : Word) : List Instr :=
  [.ldh ra (imm16.extractLsb' 8 8), .ldl ra (imm16.extractLsb' 0 8)]

/-! ### The opcode table's numbering -/

/-- The instruction the decoder reads from an instruction whose `nbits` low bits are those of `w`, bit 0
the least significant bit of the word, every bit above zero. An instruction is one 16-bit word (R60),
so more than 16 bits are no instruction. No byte order is involved: the core's words have none (R48). -/
def decodeTableWord (nbits w : Nat) : Option Instr :=
  if nbits ≤ 16 then
    match decode (BitVec.ofNat 16 (w % 2 ^ nbits)) with
    | .ok i => some i
    | .error _ => none
  else none

end Sys2Proof
end

