-- ==== Sys2Proof/Config.lean ====
section
/-!
DEFINITION. The parameters of spec/00_scope.md R8 at the values the spec decides, and the one free
value of the hardware's ports. OPCODE_MAP stands in Sys2Proof/Decode.lean; PROG is a field of State.
-/

namespace Sys2Proof

/-- FLAG_RESET, the comparison flag's reset value: 0, the spec's decision D2 (R8, R32, R161).
DESIGN CHOICE, unsafe for a je before any cmp (log entry 3). -/
def Config.flagReset : Bool := false

/-- The largest PROG_LEN a program image may have: 2^PC_WIDTH - 1 with PC_WIDTH = 16 (R8, R163; D3,
log entries 1 and 4). -/
def Config.maxProgLen : Nat := 65535

/-- DATA_WORDS, the number of 16-bit words of the Data Store (R8, R44). -/
def Config.dataWords : Nat := 256

/-- What a byte of the Data Store that nothing has written holds: "zero-initialized" (R44, R161). -/
def Config.unwrittenByte : Byte := 0

/-- FREE VALUE. What the program port's read data carries for an address the Program Store does not
hold: "unspecified and unused otherwise" (R43; I4, any value). No step of the machine reads it
(log entry 12). -/
opaque Config.pmRdataOutOfRange : Word → Word

end Sys2Proof
end

