-- ==== Sys2Proof/Machine/State.lean ====
section
/-!
DEFINITION. The state of the core (spec/10_state.md R20 "and nothing else"), its reset value
(spec/70_reset_and_hazards.md R161) and the reasons a step stops.
-/

namespace Sys2Proof.Machine

/-- The engine's three states (R34). Code 3 is never driven (R35; I9) and has no name. -/
inductive RunState where
  /-- Cycles execute (R81). -/
  | running
  /-- Terminal, reached by hlt (R34, R86). -/
  | halted
  /-- Terminal, reached by a fetch fault or a decode fault (R34, R83, R85). -/
  | faulted
  deriving DecidableEq, Repr

/-- The kind of fault that ended the run, if one did (R34, R155). -/
inductive FaultKind where
  /-- No fault. -/
  | none
  /-- FetchFault, "unexpected end of program" (R141). -/
  | fetch
  /-- DecodeFault, "unknown operation code" (R142). -/
  | decode
  deriving DecidableEq, Repr

/-- The Data Store's contents as a canonical list of cells (R44): see `Memory.wf`. Word `a` stands in the
cells `2a` (its bits 7..0) and `2a + 1` (its bits 15..8). The spec addresses no bytes and no instruction
can tell the two cells' order (R48): DESIGN CHOICE, safe (log entry 2). -/
abbrev Memory := List Host.Cell

/-- The canonical form: addresses strictly rising and inside the 256 words, and no cell that holds what an
unlisted cell reads as. -/
abbrev Memory.wf (m : Memory) : Prop :=
  m.Pairwise (fun c d => c.1 < d.1) ∧
    ∀ c ∈ m, c.1 < 2 * Config.dataWords ∧ c.2 ≠ Config.unwrittenByte

/-- The architectural state of one core (R20). -/
structure State where
  /-- The general registers x[0] to x[7] (R21). -/
  x : Vector Word 8
  /-- The program counter, a word index into the Program Store (R27). -/
  pc : Word
  /-- The comparison flag, set by cmp and read by je (R32). -/
  flag : Bool
  /-- The Data Store (R44). -/
  dmem : Memory
  /-- The Program Store PROG; PROG_LEN is its length (R41). -/
  prog : List Word
  /-- The engine's state (R34). -/
  runState : RunState
  /-- The kind of fault, `none` unless FAULTED (R34). -/
  faultKind : FaultKind
  deriving DecidableEq, Repr

/-- The machine right after reset (R161), with the empty program: PROG is not given by reset but supplied by
the host at construction (`construct`; log entry 9). -/
def State.reset : State where
  x := Vector.replicate 8 0
  pc := 0
  flag := Config.flagReset
  dmem := []
  prog := []
  runState := .running
  faultKind := .none

/-- Reasons a step stops the model with a fault: there are none. The two faults of the spec (R140) are
recorded in the state, which then stays FAULTED (R81, R146), so a cycle that faults answers a next
state; nothing else stops the machine (R143; log entry 8). Safe: nothing raises one. -/
inductive Fault where
  deriving DecidableEq, Repr

/-- Reasons a step is refused. -/
inductive Refusal where
  /-- An instruction without a meaning, by its mnemonic. Raised by no arm of exec: all are modelled. Safe. -/
  | notModelled (mnemonic : String)
  /-- The program is longer than 2^PC_WIDTH - 1 words, which the spec refuses (R8, R163; I8). Raised by
  `construct`, and by the fetch of a state that no construction gives. Safe (log entry 1). -/
  | programTooLong
  deriving DecidableEq, Repr

end Sys2Proof.Machine
end

