-- ==== Sys2Proof/WellFormed.lean ====
section
/-!
DEFINITION. Well-formedness. An instruction needs no check of its own: "every 3-bit pattern is a valid
index" and the immediates are whole 8-bit fields (spec/30_encoding.md R62, R64), and the constructors
of Instr admit nothing else. The one check the spec makes on what a program is made of is the length
of its image.
-/

namespace Sys2Proof

/-- Every term of Instr is a well-formed instruction (R62, R64): there is nothing left to refuse. -/
def Instr.wf (_ : Instr) : Bool := true

/-- A program image the spec admits: any finite sequence of words, also empty, with
PROG_LEN <= 2^PC_WIDTH - 1 (R8, R41, R163; log entry 1). -/
abbrev ImageFits (img : List Word) : Prop := img.length ≤ Config.maxProgLen

end Sys2Proof
end

