-- ==== Sys2Proof/Machine/Ops.lean ====
section
/-!
DEFINITION. The named operations over the register file, the Data Store, the Program Store, the pc and the
engine state. Every meaning reads and writes the state through these.
-/

namespace Sys2Proof.Machine

/-! ### Register file (spec/10_state.md R21, R23): total, no side effect beyond the written cell -/

/-- `x[i]`. -/
def State.readReg (s : State) (i : RegIdx) : Word := s.x[i.toNat]'i.isLt

/-- `x[i] <- v`. -/
def State.writeReg (s : State) (i : RegIdx) (v : Word) : State :=
  { s with x := s.x.set i.toNat v i.isLt }

/-! ### Comparison flag (R32) -/

/-- `flag <- b`. -/
def State.setFlag (s : State) (b : Bool) : State := { s with flag := b }

/-! ### Data Store (spec/20_memory.md R44, R45) -/

/-- One byte of the Data Store; what is not listed reads as at reset. -/
def Memory.readByte : Memory → Nat → Byte
  | [], _ => Config.unwrittenByte
  | (k, v) :: m, a => if k = a then v else Memory.readByte m a

/-- A cell put in its place by address. -/
def Memory.insertCell (a : Nat) (v : Byte) : Memory → Memory
  | [] => [(a, v)]
  | c :: m => if a < c.1 then (a, v) :: c :: m else c :: Memory.insertCell a v m

/-- One byte written, the canonical form kept: a byte that an unlisted cell would read as is not listed. -/
def Memory.writeByte (m : Memory) (a : Nat) (v : Byte) : Memory :=
  let rest := m.filter fun c => c.1 != a
  if v = Config.unwrittenByte then rest else Memory.insertCell a v rest

/-- The cell of bits 7..0 of data word `a` (log entry 2). -/
def lowCell (a : Addr8) : Nat := 2 * a.toNat

/-- The cell of bits 15..8 of data word `a` (log entry 2). -/
def highCell (a : Addr8) : Nat := 2 * a.toNat + 1

/-- `dmem[a]`: every 8-bit index is in range (R45). -/
def Memory.readWord (m : Memory) (a : Addr8) : Word :=
  m.readByte (highCell a) ++ m.readByte (lowCell a)

/-- `dmem[a] <- v`, the whole word (R45, R50). -/
def Memory.writeWord (m : Memory) (a : Addr8) (v : Word) : Memory :=
  (m.writeByte (lowCell a) (v.extractLsb' 0 8)).writeByte (highCell a) (v.extractLsb' 8 8)

/-- `MemRead(a, 1)` (R45). -/
def State.dmemRead (s : State) (a : Addr8) : Word := s.dmem.readWord a

/-- `MemWrite(a, 1, v)` (R45). -/
def State.dmemWrite (s : State) (a : Addr8) (v : Word) : State :=
  { s with dmem := s.dmem.writeWord a v }

/-! ### Program Store and pc (R42, R28) -/

/-- PROG_LEN. -/
def State.progLen (s : State) : Nat := s.prog.length

/-- `ProgRead(a)`: the word, or none when the program address decoder reports out of range, which is so
exactly when `a >= PROG_LEN` (R42; C2). -/
def State.progRead (s : State) (a : Word) : Option Word := s.prog[a.toNat]?

/-- `pc <- v`. -/
def State.setPc (s : State) (v : Word) : State := { s with pc := v }

/-- The increment that follows a successful fetch (R82). In a program the spec admits it never wraps (R30). -/
def State.advancePc (s : State) : State := s.setPc (s.pc + 1)

/-! ### The engine state (R34) -/

/-- `stop`: `run_state <- HALTED` (R11, R86). -/
def State.halt (s : State) : State := { s with runState := .halted }

/-- A fault's entry, for both faults: `run_state <- FAULTED` and `fault_kind` set, nothing else (R83, R85,
R146). There is no handler, vector or saved register, and no return from it: only reset leaves FAULTED
(R147). -/
def State.takeFault (s : State) (k : FaultKind) : State :=
  { s with runState := .faulted, faultKind := k }

/-- The code `run_state` drives (R34, R155; D8). -/
def RunState.code : RunState → BitVec 2
  | .running => 0
  | .halted => 1
  | .faulted => 2

/-- The code `fault_kind` drives (R34, R155; D8). -/
def FaultKind.code : FaultKind → BitVec 2
  | .none => 0
  | .fetch => 1
  | .decode => 2

end Sys2Proof.Machine
end

