-- ==== Sys2Proof/Machine/Flags.lean ====
section
/-!
DEFINITION. The one flag computation of the core (spec/44_compare_jump.md R120). No arithmetic instruction
writes a flag (spec/10_state.md R32).
-/

namespace Sys2Proof.Machine

/-- cmp's result: 16-bit equality (R120). -/
def compareFlag (a b : Word) : Bool := a == b

/-- je's condition: the flag, which it reads and does not clear (R121). -/
def jumpIfEqualTaken (s : State) : Bool := s.flag

end Sys2Proof.Machine
end

