-- ==== Sys2Proof/Machine/Operands.lean ====
section
/-!
DEFINITION. What operands stand for: the jump target and the data address of the 8-bit field, the byte
replacements of ldl and ldh, and the results of the shifts.
-/

namespace Sys2Proof.Machine

/-- `zext_PC_WIDTH(addr8)`, the absolute jump target (spec/30_encoding.md R65; D4, log entry 6). -/
def jumpTarget (addr8 : Addr8) : Word := addr8.setWidth 16

/-- The effective address of ld and st: the field itself, the only addressing mode
(spec/45_load_store.md R127). -/
def dataAddress (addr8 : Addr8) : Addr8 := addr8

/-- `v[15:8] ++ k` (spec/43_immediate.md R115). -/
def withLowByte (v : Word) (k : Byte) : Word := v.extractLsb' 8 8 ++ k

/-- `k ++ v[7:0]` (spec/43_immediate.md R116). -/
def withHighByte (v : Word) (k : Byte) : Word := k ++ v.extractLsb' 0 8

/-- `(v << 1)[15:0]` (spec/42_shift.md R110). -/
def shiftLeft1 (v : Word) : Word := v <<< 1

/-- `v >> 1`, zero into bit 15 (spec/42_shift.md R111). -/
def shiftRight1 (v : Word) : Word := v >>> 1

/-- `(v & 0x8000) | (v >> 1)`: the operand's own sign bit is kept (spec/42_shift.md R112, R113; C5, log
entry 7). -/
def shiftRightArith1 (v : Word) : Word := (v &&& 0x8000) ||| (v >>> 1)

end Sys2Proof.Machine
end

