-- ==== Sys2Proof/Machine/CompareJump.lean ====
section
/-!
DEFINITION. cmp, je, jmp (spec/44_compare_jump.md). The pc is already index + 1; a taken jump overwrites it
(R123, spec/70_reset_and_hazards.md R166).
-/

namespace Sys2Proof.Machine

/-- cmp: `flag <- (x[ra] == x[rb])`, the only write of the flag (R120). -/
def execCmp (ra rb : RegIdx) (s : State) : Host.Outcome State Fault Refusal :=
  .next (s.setFlag (compareFlag (s.readReg ra) (s.readReg rb)))

/-- je: `if flag then pc <- zext_PC_WIDTH(addr8)`, else the pc stays index + 1 (R121). -/
def execJe (addr8 : Addr8) (s : State) : Host.Outcome State Fault Refusal :=
  .next (if jumpIfEqualTaken s then s.setPc (jumpTarget addr8) else s)

/-- jmp: `pc <- zext_PC_WIDTH(addr8)` (R122). -/
def execJmp (addr8 : Addr8) (s : State) : Host.Outcome State Fault Refusal :=
  .next (s.setPc (jumpTarget addr8))

end Sys2Proof.Machine
end

