-- ==== Sys2Proof/Machine/Halt.lean ====
section
/-!
DEFINITION. hlt (spec/46_halt.md): the run ends successfully.
-/

namespace Sys2Proof.Machine

/-- hlt: `run_state <- HALTED`; the pc keeps the incremented value (R130, R86). -/
def execHlt (s : State) : Host.Outcome State Fault Refusal := .next s.halt

end Sys2Proof.Machine
end

