-- ==== Sys2Proof/Machine/Immediate.lean ====
section
/-!
DEFINITION. ldl and ldh (spec/43_immediate.md): one byte of the register replaced, the other kept.
-/

namespace Sys2Proof.Machine

/-- ldl: `x[ra] <- x[ra][15:8] ++ imm8` (R115). -/
def execLdl (ra : RegIdx) (imm8 : Byte) (s : State) : Host.Outcome State Fault Refusal :=
  .next (s.writeReg ra (withLowByte (s.readReg ra) imm8))

/-- ldh: `x[ra] <- imm8 ++ x[ra][7:0]` (R116). -/
def execLdh (ra : RegIdx) (imm8 : Byte) (s : State) : Host.Outcome State Fault Refusal :=
  .next (s.writeReg ra (withHighByte (s.readReg ra) imm8))

end Sys2Proof.Machine
end

