-- ==== Sys2Proof/Machine/LoadStore.lean ====
section
/-!
DEFINITION. ld and st (spec/45_load_store.md): one whole word between a register and the Data Store.
-/

namespace Sys2Proof.Machine

/-- ld: `x[ra] <- dmem[addr8]` (R125). -/
def execLd (ra : RegIdx) (addr8 : Addr8) (s : State) : Host.Outcome State Fault Refusal :=
  .next (s.writeReg ra (s.dmemRead (dataAddress addr8)))

/-- st: `dmem[addr8] <- x[ra]` (R126). -/
def execSt (ra : RegIdx) (addr8 : Addr8) (s : State) : Host.Outcome State Fault Refusal :=
  .next (s.dmemWrite (dataAddress addr8) (s.readReg ra))

end Sys2Proof.Machine
end

