-- ==== Sys2Proof/Machine/RegisterOps.lean ====
section
/-!
DEFINITION. mov, add, sub, and, or (spec/41_register_ops.md). The state a meaning takes has its pc already
at index + 1 (spec/40_cycle.md R82). No flag is written and nothing faults.
-/

namespace Sys2Proof.Machine

/-- mov: `x[ra] <- x[rb]` (R100). -/
def execMov (ra rb : RegIdx) (s : State) : Host.Outcome State Fault Refusal :=
  .next (s.writeReg ra (s.readReg rb))

/-- add: `x[ra] <- (x[ra] + x[rb]) mod 2^16` (R101, R105). -/
def execAdd (ra rb : RegIdx) (s : State) : Host.Outcome State Fault Refusal :=
  .next (s.writeReg ra (s.readReg ra + s.readReg rb))

/-- sub: `x[ra] <- (x[ra] - x[rb]) mod 2^16` (R102, R105). -/
def execSub (ra rb : RegIdx) (s : State) : Host.Outcome State Fault Refusal :=
  .next (s.writeReg ra (s.readReg ra - s.readReg rb))

/-- and: `x[ra] <- x[ra] & x[rb]` (R103). -/
def execAnd (ra rb : RegIdx) (s : State) : Host.Outcome State Fault Refusal :=
  .next (s.writeReg ra (s.readReg ra &&& s.readReg rb))

/-- or: `x[ra] <- x[ra] | x[rb]` (R104). -/
def execOr (ra rb : RegIdx) (s : State) : Host.Outcome State Fault Refusal :=
  .next (s.writeReg ra (s.readReg ra ||| s.readReg rb))

end Sys2Proof.Machine
end

