-- ==== Sys2Proof/Machine/Shift.lean ====
section
/-!
DEFINITION. sl, sr, sra (spec/42_shift.md): each moves by one bit position; the bit shifted out is dropped.
-/

namespace Sys2Proof.Machine

/-- sl: `x[ra] <- (x[ra] << 1)[15:0]` (R110). -/
def execSl (ra : RegIdx) (s : State) : Host.Outcome State Fault Refusal :=
  .next (s.writeReg ra (shiftLeft1 (s.readReg ra)))

/-- sr: `x[ra] <- x[ra] >> 1` (R111). -/
def execSr (ra : RegIdx) (s : State) : Host.Outcome State Fault Refusal :=
  .next (s.writeReg ra (shiftRight1 (s.readReg ra)))

/-- sra: `x[ra] <- (x[ra] & 0x8000) | (x[ra] >> 1)` (R112, R113). -/
def execSra (ra : RegIdx) (s : State) : Host.Outcome State Fault Refusal :=
  .next (s.writeReg ra (shiftRightArith1 (s.readReg ra)))

end Sys2Proof.Machine
end

