-- ==== Sys2Proof/Machine/Cycle.lean ====
section
/-!
DEFINITION. The per-cycle control: fetch, increment, decode, execute (spec/40_cycle.md R80 to R87), and how a
word is put where the next fetch reads it.
-/

namespace Sys2Proof.Machine

/-- The decode and execute half of a cycle, on the fetched word and a state whose pc has been advanced: the
Operation's meaning (R84), or a decode fault (R85). -/
def decodeExecute (ir : Word) (s : State) : Host.Outcome State Fault Refusal :=
  match decode ir with
  | .ok i => exec i s
  | .error _ => .next (s.takeFault .decode)

/-- The cycle of a RUNNING core: a fetch past the end faults and leaves the pc (R83), any other fetch
advances the pc before the word is decoded (R82). -/
def fetchCycle (s : State) : Host.Outcome State Fault Refusal :=
  match s.progRead s.pc with
  | none => .next (s.takeFault .fetch)
  | some ir => decodeExecute ir s.advancePc

/-- One cycle with `rst = 0` (R87). A HALTED or FAULTED core changes nothing (R81; D9, log entry 8). A program
that no construction admits is refused (I8, log entry 1). -/
def cycle (s : State) : Host.Outcome State Fault Refusal :=
  match s.runState with
  | .halted => .next s
  | .faulted => .next s
  | .running => if ImageFits s.prog then fetchCycle s else .refused .programTooLong

/-- The image with word `w` at index `k`, lengthened with zero words where it is too short. -/
def placeWord (w : Word) : List Word → Nat → List Word
  | [], 0 => [w]
  | _ :: l, 0 => w :: l
  | [], k + 1 => 0 :: placeWord w [] k
  | v :: l, k + 1 => v :: placeWord w l k

/-- Where the next fetch can be made to read: the pc, but index 0 for the one pc value (65535) that no program
the spec admits can be fetched at (R30; log entry 10). -/
def fetchIndex (s : State) : Word := if s.pc.toNat < Config.maxProgLen then s.pc else 0

/-- A RUNNING core whose next fetch reads `w`: stands for the host's load of a program (log entries 9, 10). -/
def placeAtFetch (s : State) (w : Word) : State :=
  { s with
    pc := fetchIndex s
    prog := (placeWord w s.prog (fetchIndex s).toNat).take Config.maxProgLen
    runState := .running
    faultKind := .none }

end Sys2Proof.Machine
end

