-- ==== Sys2Proof/Machine/Step.lean ====
section
/-!
DEFINITION. One step of the machine is one clock cycle (spec/40_cycle.md R80).
-/

namespace Sys2Proof.Machine

/-- One cycle of the core with `rst = 0`. -/
def step (s : State) : Host.Outcome State Fault Refusal := cycle s

/-- `s` with the instruction whose `nbits` low bits are those of `w` (the bits above zero) stored where the
next step fetches. -/
def State.withFetchWord (s : State) (nbits w : Nat) : State :=
  placeAtFetch s (BitVec.ofNat 16 (w % 2 ^ nbits))

end Sys2Proof.Machine
end

