-- ==== Sys2Proof/Machine/HostBoundary.lean ====
section
/-!
DEFINITION. What the host does to the core: construction, reset, the clock, the result of a run and
inspection (spec/40_cycle.md R89, R94; spec/60_exceptions.md R153; spec/70_reset_and_hazards.md R160 to
R164).
-/

namespace Sys2Proof.Machine

/-- Construction from a program image: every state at its reset value and PROG the image (R94, R161). An image
longer than the spec admits is refused (R163; I8). -/
def construct (img : List Word) : Host.Outcome State Fault Refusal :=
  if ImageFits img then .next { State.reset with prog := img } else .refused .programTooLong

/-- A cycle with `rst = 1`: every piece of state takes its reset value, whatever `run_state` is, and PROG stays
(R160, R161; D10, log entry 11). -/
def resetCycle (s : State) : State := { State.reset with prog := s.prog }

/-- One clock edge, with the synchronous reset input `rst` (R160). -/
def clock (rst : Bool) (s : State) : Host.Outcome State Fault Refusal :=
  if rst then .next (resetCycle s) else cycle s

/-- The tagged result of a run (R89). -/
inductive RunResult where
  | success
  | fetchFault
  | decodeFault
  deriving DecidableEq, Repr

/-- The result of the run, read off `run_state` and `fault_kind` (R89, R155); none while RUNNING, and for the
pair FAULTED and NONE, which R34 excludes. -/
def State.result (s : State) : Option RunResult :=
  match s.runState, s.faultKind with
  | .running, _ => none
  | .halted, _ => some .success
  | .faulted, .fetch => some .fetchFault
  | .faulted, .decode => some .decodeFault
  | .faulted, .none => none

/-- Where the fault is: the out-of-range pc of a fetch fault (R141), the index before the pc of a decode fault
(R142; D18). -/
def State.faultIndex (s : State) : Option Word :=
  match s.result with
  | some .fetchFault => some s.pc
  | some .decodeFault => some (s.pc - 1)
  | _ => none

/-- What the host may read between cycles; PROG is not among it (R94; D11, log entry 15). -/
structure Inspection where
  x : Vector Word 8
  flag : Bool
  pc : Word
  dmem : Memory
  runState : RunState
  faultKind : FaultKind
  deriving DecidableEq, Repr

/-- The inspection boundary (R94, R153): a read, which changes nothing. -/
def inspect (s : State) : Inspection where
  x := s.x
  flag := s.flag
  pc := s.pc
  dmem := s.dmem
  runState := s.runState
  faultKind := s.faultKind

end Sys2Proof.Machine
end

