-- ==== Sys2Proof/Machine/Datapath.lean ====
section
/-!
DEFINITION. The core as hardware blocks: the decoder's control table (spec/30_encoding.md R70), the ports of
the register file (spec/10_state.md R25), of the Program Store and of the Data Store (spec/20_memory.md R43,
R46), and the commit at the end of a cycle (spec/40_cycle.md R80). It is a second description of the same
cycle as Sys2Proof/Machine/Cycle.lean; the obligations say that the two agree. Every signal that a reset cycle
holds back takes the reset input `rst` (spec/70_reset_and_hazards.md R160). The signal names are the spec's
decisions D5 to D7 (log entry 13).
-/

namespace Sys2Proof.Machine

/-- The next-pc select (R70, R84). -/
inductive PcSel where
  | seq
  | target
  deriving DecidableEq, Repr

/-- The decoder's control outputs (R70). -/
structure Control where
  rfWe : Bool
  flagWe : Bool
  dmRe : Bool
  dmWe : Bool
  pcSel : PcSel
  halt : Bool
  deriving DecidableEq, Repr

/-- The row of R70 for a decode fault, and what a cycle that does not execute drives: every enable 0, SEQ. -/
def idleControl : Control :=
  { rfWe := false, flagWe := false, dmRe := false, dmWe := false, pcSel := .seq, halt := false }

/-- The rows of R70's table that write x[ra] and do nothing else. -/
def writeControl : Control := { idleControl with rfWe := true }

/-- R70's table, row by row; je's select depends on the flag. -/
def controlOf (i : Instr) (flag : Bool) : Control :=
  match i with
  | .mov _ _ => writeControl
  | .add _ _ => writeControl
  | .sub _ _ => writeControl
  | .and _ _ => writeControl
  | .or _ _ => writeControl
  | .sl _ => writeControl
  | .sr _ => writeControl
  | .sra _ => writeControl
  | .ldl _ _ => writeControl
  | .ldh _ _ => writeControl
  | .cmp _ _ => { idleControl with flagWe := true }
  | .je _ => { idleControl with pcSel := if flag then .target else .seq }
  | .jmp _ => { idleControl with pcSel := .target }
  | .ld _ _ => { writeControl with dmRe := true }
  | .st _ _ => { idleControl with dmWe := true }
  | .hlt => { idleControl with halt := true }

/-- R70's column rf_wdata, over read ports A and B, the immediate field and the Data Store's read data; none
where the table has no source. -/
def wdataOf (i : Instr) (a b : Word) (imm8 : Byte) (dmRdata : Word) : Option Word :=
  match i with
  | .mov _ _ => some b
  | .add _ _ => some (a + b)
  | .sub _ _ => some (a - b)
  | .and _ _ => some (a &&& b)
  | .or _ _ => some (a ||| b)
  | .sl _ => some (a <<< 1)
  | .sr _ => some (a >>> 1)
  | .sra _ => some ((a &&& 0x8000) ||| (a >>> 1))
  | .ldl _ _ => some (a.extractLsb' 8 8 ++ imm8)
  | .ldh _ _ => some (imm8 ++ a.extractLsb' 0 8)
  | .cmp _ _ => none
  | .je _ => none
  | .jmp _ => none
  | .ld _ _ => some dmRdata
  | .st _ _ => none
  | .hlt => none

/-- The program port (R43). -/
structure ProgramPort where
  pmAddr : Word
  pmInRange : Bool
  pmRdata : Word

/-- The program port in a cycle from `s`. Out of range the read data is a free value, never used (R43; I4, log
entry 12). -/
def programPort (s : State) : ProgramPort where
  pmAddr := s.pc
  pmInRange := decide (s.pc.toNat < s.progLen)
  pmRdata := (s.progRead s.pc).getD (Config.pmRdataOutOfRange s.pc)

/-- What one RUNNING cycle with `rst = 0` does, from the fetch and the decoder: the Operation it executes, or the kind of fault
it raises. The fetch comes first (R145). -/
def cycleOperation (s : State) : Except FaultKind Instr :=
  if (programPort s).pmInRange then
    match decode (programPort s).pmRdata with
    | .ok i => .ok i
    | .error _ => .error .decode
  else .error .fetch

/-- The control outputs of a cycle: all enables 0 in a reset cycle (R160), outside RUNNING and in a cycle that
faults (R25, R46, R70). -/
def cycleControl (rst : Bool) (s : State) : Control :=
  if rst then idleControl
  else
    match s.runState, cycleOperation s with
    | .running, .ok i => controlOf i s.flag
    | _, _ => idleControl

/-- The register-file ports (R25). -/
structure RegFilePorts where
  rfRaddrA : RegIdx
  rfRdataA : Word
  rfRaddrB : RegIdx
  rfRdataB : Word
  rfWe : Bool
  rfWaddr : RegIdx
  /-- None where R70 gives no source. -/
  rfWdata : Option Word

/-- The data port (R46). -/
structure DataPort where
  dmAddr : Addr8
  dmRe : Bool
  dmRdata : Word
  dmWe : Bool
  dmWdata : Word

/-- The data port in a cycle from `s`: the address is the word's low byte, the write data read port A (R46). -/
def dataPort (rst : Bool) (s : State) : DataPort where
  dmAddr := fieldImm8 (programPort s).pmRdata
  dmRe := (cycleControl rst s).dmRe
  dmRdata := s.dmemRead (fieldImm8 (programPort s).pmRdata)
  dmWe := (cycleControl rst s).dmWe
  dmWdata := s.readReg (fieldRa (programPort s).pmRdata)

/-- The register-file ports in a cycle from `s`: the read ports are driven for every word, the write address is
always ra (R25). -/
def regFilePorts (rst : Bool) (s : State) : RegFilePorts where
  rfRaddrA := fieldRa (programPort s).pmRdata
  rfRdataA := s.readReg (fieldRa (programPort s).pmRdata)
  rfRaddrB := fieldRb (programPort s).pmRdata
  rfRdataB := s.readReg (fieldRb (programPort s).pmRdata)
  rfWe := (cycleControl rst s).rfWe
  rfWaddr := fieldRa (programPort s).pmRdata
  rfWdata :=
    match cycleOperation s with
    | .ok i =>
      wdataOf i (s.readReg (fieldRa (programPort s).pmRdata)) (s.readReg (fieldRb (programPort s).pmRdata))
        (fieldImm8 (programPort s).pmRdata) (dataPort rst s).dmRdata
    | .error _ => none

/-- The fetches a cycle makes: none in a reset cycle, whatever `run_state` is (R160), else one in a RUNNING cycle and
none in any other (R43, R47; log entry 11). -/
def fetchCount (rst : Bool) (s : State) : Nat := if rst = false ∧ s.runState = .running then 1 else 0

/-- The data accesses a cycle makes (R47); none in a reset cycle (R160). -/
def dataAccessCount (rst : Bool) (s : State) : Nat := (dataPort rst s).dmRe.toNat + (dataPort rst s).dmWe.toNat

/-- The next pc of a RUNNING cycle with `rst = 0`: unchanged by a fetch fault, else SEQ (index + 1) or TARGET
(R83, R84, R85). -/
def nextPc (s : State) : Word :=
  if (programPort s).pmInRange then
    match (cycleControl false s).pcSel with
    | .seq => s.pc + 1
    | .target => jumpTarget (fieldImm8 (programPort s).pmRdata)
  else s.pc

/-- The state after the clock edge that ends a cycle with `rst = 0`, each element from its own write enable
(R25, R46, R70, R80, R81). -/
def datapathCommit (s : State) : State :=
  match s.runState with
  | .halted => s
  | .faulted => s
  | .running =>
    { x :=
        match (regFilePorts false s).rfWe, (regFilePorts false s).rfWdata with
        | true, some v => (s.writeReg (regFilePorts false s).rfWaddr v).x
        | _, _ => s.x
      pc := nextPc s
      flag :=
        if (cycleControl false s).flagWe then (regFilePorts false s).rfRdataA == (regFilePorts false s).rfRdataB else s.flag
      dmem :=
        if (dataPort false s).dmWe then s.dmem.writeWord (dataPort false s).dmAddr (dataPort false s).dmWdata else s.dmem
      prog := s.prog
      runState :=
        match cycleOperation s with
        | .ok _ => if (cycleControl false s).halt then .halted else .running
        | .error _ => .faulted
      faultKind :=
        match cycleOperation s with
        | .ok _ => s.faultKind
        | .error k => k }

/-- The state after the clock edge that ends a cycle: with `rst = 1` every element but PROG takes its reset value,
whatever `run_state` and the write enables are (R160, R161), else the commit. -/
def datapathCycle (rst : Bool) (s : State) : State := if rst then resetCycle s else datapathCommit s

end Sys2Proof.Machine
end

