-- ==== Sys2Proof/Safety.lean ====
section
/-!
DEFINITION. The terms claims are stated in: the invariant of the machine's states, what counts as a safe end,
and frames (what an instruction leaves as it was).
-/

namespace Sys2Proof

/-- Whether the instruction reads general register `r`: R22's columns "reads x[ra]" and "reads x[rb]". -/
def Instr.reads (i : Instr) (r : RegIdx) : Bool :=
  match i with
  | .mov _ rb => r == rb
  | .add ra rb => r == ra || r == rb
  | .sub ra rb => r == ra || r == rb
  | .and ra rb => r == ra || r == rb
  | .or ra rb => r == ra || r == rb
  | .sl ra => r == ra
  | .sr ra => r == ra
  | .sra ra => r == ra
  | .ldl ra _ => r == ra
  | .ldh ra _ => r == ra
  | .cmp ra rb => r == ra || r == rb
  | .je _ => false
  | .jmp _ => false
  | .ld _ _ => false
  | .st ra _ => r == ra
  | .hlt => false

/-- The general register the instruction writes: R22's column "writes x[ra]". -/
def Instr.writes (i : Instr) : Option RegIdx :=
  match i with
  | .mov ra _ => some ra
  | .add ra _ => some ra
  | .sub ra _ => some ra
  | .and ra _ => some ra
  | .or ra _ => some ra
  | .sl ra => some ra
  | .sr ra => some ra
  | .sra ra => some ra
  | .ldl ra _ => some ra
  | .ldh ra _ => some ra
  | .cmp _ _ => none
  | .je _ => none
  | .jmp _ => none
  | .ld ra _ => some ra
  | .st _ _ => none
  | .hlt => none

/-- The data word the instruction stores to, through the same address function its meaning uses (R126, R127). -/
def Instr.storesTo (i : Instr) : Option Addr8 :=
  match i with
  | .mov _ _ => none
  | .add _ _ => none
  | .sub _ _ => none
  | .and _ _ => none
  | .or _ _ => none
  | .sl _ => none
  | .sr _ => none
  | .sra _ => none
  | .ldl _ _ => none
  | .ldh _ _ => none
  | .cmp _ _ => none
  | .je _ => none
  | .jmp _ => none
  | .ld _ _ => none
  | .st _ addr8 => some (Machine.dataAddress addr8)
  | .hlt => none

/-- The jump the instruction takes in a state, if it takes one (R121, R122). -/
def Instr.jumpsTo (i : Instr) (flag : Bool) : Option Addr8 :=
  match i with
  | .mov _ _ => none
  | .add _ _ => none
  | .sub _ _ => none
  | .and _ _ => none
  | .or _ _ => none
  | .sl _ => none
  | .sr _ => none
  | .sra _ => none
  | .ldl _ _ => none
  | .ldh _ _ => none
  | .cmp _ _ => none
  | .je addr8 => if flag then some addr8 else none
  | .jmp addr8 => some addr8
  | .ld _ _ => none
  | .st _ _ => none
  | .hlt => none

end Sys2Proof

namespace Sys2Proof.Machine

/-- `fault_kind != NONE` exactly when `run_state = FAULTED` (spec/10_state.md R34). -/
abbrev FaultKindAgrees (s : State) : Prop := s.faultKind ≠ .none ↔ s.runState = .faulted

/-- The pc is at most PROG_LEN, reached sequentially, or at most 255, reached by a jump (spec/10_state.md R27,
R30; spec/20_memory.md R51; C1). -/
abbrev PcReachable (s : State) : Prop := s.pc.toNat ≤ max s.progLen 255

/-- The invariant of the machine: the program is one the spec admits, the Data Store is in its canonical form,
`fault_kind` agrees with `run_state`, and the pc is one a run can reach. -/
structure Inv (s : State) : Prop where
  programFits : ImageFits s.prog
  dataStoreCanonical : s.dmem.wf
  faultKindAgrees : FaultKindAgrees s
  pcReachable : PcReachable s

/-- A run that has not ended in a fault (R89). -/
def NotFaulted (s : State) : Prop := s.runState ≠ .faulted

/-- `t` is `s` but for register `ra`: every other register, the flag, the pc, every byte of the Data Store, the
Program Store and the engine state are as before. -/
structure SameButReg (ra : RegIdx) (s t : State) : Prop where
  regs : ∀ j, j ≠ ra → t.readReg j = s.readReg j
  flag : t.flag = s.flag
  pc : t.pc = s.pc
  data : ∀ b : Nat, t.dmem.readByte b = s.dmem.readByte b
  prog : t.prog = s.prog
  runState : t.runState = s.runState
  faultKind : t.faultKind = s.faultKind

/-- `t` is `s` but for the flag. -/
structure SameButFlag (s t : State) : Prop where
  regs : ∀ j, t.readReg j = s.readReg j
  pc : t.pc = s.pc
  data : ∀ b : Nat, t.dmem.readByte b = s.dmem.readByte b
  prog : t.prog = s.prog
  runState : t.runState = s.runState
  faultKind : t.faultKind = s.faultKind

/-- `t` is `s` but for the pc. -/
structure SameButPc (s t : State) : Prop where
  regs : ∀ j, t.readReg j = s.readReg j
  flag : t.flag = s.flag
  data : ∀ b : Nat, t.dmem.readByte b = s.dmem.readByte b
  prog : t.prog = s.prog
  runState : t.runState = s.runState
  faultKind : t.faultKind = s.faultKind

/-- `t` is `s` but for the two bytes of Data Store word `a`. -/
structure SameButData (a : Addr8) (s t : State) : Prop where
  regs : ∀ j, t.readReg j = s.readReg j
  flag : t.flag = s.flag
  pc : t.pc = s.pc
  data : ∀ b : Nat, b ≠ lowCell a → b ≠ highCell a → t.dmem.readByte b = s.dmem.readByte b
  prog : t.prog = s.prog
  runState : t.runState = s.runState
  faultKind : t.faultKind = s.faultKind

/-- `t` is `s` but for the engine state (`run_state`, `fault_kind`). -/
structure SameButEngine (s t : State) : Prop where
  regs : ∀ j, t.readReg j = s.readReg j
  flag : t.flag = s.flag
  pc : t.pc = s.pc
  data : ∀ b : Nat, t.dmem.readByte b = s.dmem.readByte b
  prog : t.prog = s.prog

/-- Every 16-bit word with this operation's selector decodes to the operation with the operands its fields
give, whatever its ignored bits hold (spec/30_encoding.md R63, R67, R68). -/
def DecodesTo (o : Opcode) (mk : Word → Instr) : Prop :=
  ∀ w : Word, fieldSel w = o.selector → decode w = .ok (mk w)

/-- The operations of shape RR: ra and rb from their fields. -/
def DecodesRR (o : Opcode) (mk : RegIdx → RegIdx → Instr) : Prop :=
  DecodesTo o fun w => mk (fieldRa w) (fieldRb w)

/-- The operations of shape R: ra from its field. -/
def DecodesR (o : Opcode) (mk : RegIdx → Instr) : Prop := DecodesTo o fun w => mk (fieldRa w)

/-- The operations of shapes RI and RA: ra and the 8-bit field. -/
def DecodesRK (o : Opcode) (mk : RegIdx → BitVec 8 → Instr) : Prop :=
  DecodesTo o fun w => mk (fieldRa w) (fieldImm8 w)

end Sys2Proof.Machine
end

