-- ==== Sys2Proof/Certificates/Slice0/Obligations.lean ====
section
/-!
DEFINITION. The statements for the provers. Each docstring names the rule of spec/ it formalises; where a
statement rests on a choice, it names the decision of spec/92_eei_decisions.md or the log entry. In every
statement about exec the state's pc is already index + 1, as in the spec's own pseudocode
(spec/00_scope.md R12). `ImageFits` is the bound of R8 and R163 on the program's length (decision D3, log entry
1); the machine answers the refusal programTooLong outside it (OverlongProgramIsRefused).
-/

open Sys2Proof Sys2Proof.Machine

/-! ### Encoding -/

/-- Round trip (spec/30_encoding.md R73, marked derived there): decoding an instruction's canonical word gives
it back, with every operand. Every term of Instr is well formed, so there is no premise. -/
def Obligations.DecodeOfEncodeReturnsInstr : Prop :=
  ∀ i : Instr, decode (encode i) = .ok i

/-- R73's other direction and R74 (marked derived there): encoding the decoded instruction clears the bits its
shape ignores, and the word so cleared decodes to the same instruction. -/
def Obligations.EncodeOfDecodeClearsIgnoredBits : Prop :=
  ∀ (w : Word) (i : Instr), decode w = .ok i →
    encode i = w &&& i.opcode.shape.keepMask ∧ decode (w &&& i.opcode.shape.keepMask) = .ok i

/-- R68: the decoder decides by the selector alone, 16 selectors are defined, every word carrying a defined one
decodes to that operation whatever its other bits hold, and an undefined one is a decode fault. -/
def Obligations.DecoderDecidesBySelectorAlone : Prop :=
  ((List.range 32).filter fun n => (opcodeOf (BitVec.ofNat 5 n)).isSome).length = 16 ∧
    ∀ w : Word,
      (∀ o, opcodeOf (fieldSel w) = some o →
        ∀ v : Word, fieldSel v = fieldSel w → ∃ i, decode v = .ok i ∧ i.opcode = o) ∧
      (opcodeOf (fieldSel w) = none → decode w = .error (.unknownOperationCode (fieldSel w)))

/-- The layout of R61 and the selector numbers of R66 (decision D1, log entry 5), as arithmetic on the word:
selector * 2048 + ra * 256 + rb * 32 + ignored bits, or + an 8-bit field. -/
def Obligations.EncodingTableByNumbers : Prop :=
  (∀ ra rb low : Nat, ra < 8 → rb < 8 → low < 32 →
    decode (BitVec.ofNat 16 (0 * 2048 + ra * 256 + rb * 32 + low)) = .ok (.mov (BitVec.ofNat 3 ra) (BitVec.ofNat 3 rb)) ∧
    decode (BitVec.ofNat 16 (1 * 2048 + ra * 256 + rb * 32 + low)) = .ok (.add (BitVec.ofNat 3 ra) (BitVec.ofNat 3 rb)) ∧
    decode (BitVec.ofNat 16 (2 * 2048 + ra * 256 + rb * 32 + low)) = .ok (.sub (BitVec.ofNat 3 ra) (BitVec.ofNat 3 rb)) ∧
    decode (BitVec.ofNat 16 (3 * 2048 + ra * 256 + rb * 32 + low)) = .ok (.and (BitVec.ofNat 3 ra) (BitVec.ofNat 3 rb)) ∧
    decode (BitVec.ofNat 16 (4 * 2048 + ra * 256 + rb * 32 + low)) = .ok (.or (BitVec.ofNat 3 ra) (BitVec.ofNat 3 rb)) ∧
    decode (BitVec.ofNat 16 (10 * 2048 + ra * 256 + rb * 32 + low)) = .ok (.cmp (BitVec.ofNat 3 ra) (BitVec.ofNat 3 rb))) ∧
  (∀ ra k : Nat, ra < 8 → k < 256 →
    decode (BitVec.ofNat 16 (5 * 2048 + ra * 256 + k)) = .ok (.sl (BitVec.ofNat 3 ra)) ∧
    decode (BitVec.ofNat 16 (6 * 2048 + ra * 256 + k)) = .ok (.sr (BitVec.ofNat 3 ra)) ∧
    decode (BitVec.ofNat 16 (7 * 2048 + ra * 256 + k)) = .ok (.sra (BitVec.ofNat 3 ra)) ∧
    decode (BitVec.ofNat 16 (8 * 2048 + ra * 256 + k)) = .ok (.ldl (BitVec.ofNat 3 ra) (BitVec.ofNat 8 k)) ∧
    decode (BitVec.ofNat 16 (9 * 2048 + ra * 256 + k)) = .ok (.ldh (BitVec.ofNat 3 ra) (BitVec.ofNat 8 k)) ∧
    decode (BitVec.ofNat 16 (11 * 2048 + ra * 256 + k)) = .ok (.je (BitVec.ofNat 8 k)) ∧
    decode (BitVec.ofNat 16 (12 * 2048 + ra * 256 + k)) = .ok (.jmp (BitVec.ofNat 8 k)) ∧
    decode (BitVec.ofNat 16 (13 * 2048 + ra * 256 + k)) = .ok (.ld (BitVec.ofNat 3 ra) (BitVec.ofNat 8 k)) ∧
    decode (BitVec.ofNat 16 (14 * 2048 + ra * 256 + k)) = .ok (.st (BitVec.ofNat 3 ra) (BitVec.ofNat 8 k)) ∧
    decode (BitVec.ofNat 16 (15 * 2048 + ra * 256 + k)) = .ok .hlt)

/-- R66's closing sentence (marked derived there; rests on D1, log entry 5): a word is undefined exactly when
its bit 15 is 1, and the error names its selector (R67). -/
def Obligations.WordUndefinedExactlyWithBit15 : Prop :=
  ∀ w : Word,
    (w.toNat < 32768 → ∃ i, decode w = .ok i) ∧
    (32768 ≤ w.toNat → decode w = .error (.unknownOperationCode (BitVec.ofNat 5 (w.toNat / 2048))))

/-- Sanity: words written out from R66 and R72 (spec/95_test_vectors.md 2.1 to 2.6; D1, log entry 5). -/
def Obligations.SampleWordsDecodeAsTheSpecReadsThem : Prop :=
  decode 0x0A20 = .ok (.add 2 1) ∧ decode 0x430A = .ok (.ldl 3 10) ∧ decode 0x580E = .ok (.je 14) ∧
    decode 0x2BFF = .ok (.sl 3) ∧ decode 0x6940 = .ok (.ld 1 64) ∧ decode 0x7FFF = .ok .hlt ∧
    decode 0x8000 = .error (.unknownOperationCode 16)

/-! ### The instructions: decoding, result, completion and frame.
The selector in each is OPCODE_MAP's for the operation; the numbers are EncodingTableByNumbers'. -/

/-- R100: mov copies x[rb] to x[ra] and changes nothing else. -/
def Obligations.MovCopiesRegisterB : Prop :=
  DecodesRR .mov .mov ∧ ∀ ra rb s, ∃ t, exec (.mov ra rb) s = .next t ∧
    t.readReg ra = s.readReg rb ∧ SameButReg ra s t

/-- R101: add is the sum modulo 2^16; no flag, no fault. -/
def Obligations.AddWrapsModulo65536 : Prop :=
  DecodesRR .add .add ∧ ∀ ra rb s, ∃ t, exec (.add ra rb) s = .next t ∧
    (t.readReg ra).toNat = ((s.readReg ra).toNat + (s.readReg rb).toNat) % 2 ^ 16 ∧ SameButReg ra s t

/-- R102: sub is (x[ra] + 2^16 - x[rb]) mod 2^16; no flag, no fault. -/
def Obligations.SubWrapsModulo65536 : Prop :=
  DecodesRR .sub .sub ∧ ∀ ra rb s, ∃ t, exec (.sub ra rb) s = .next t ∧
    (t.readReg ra).toNat = ((s.readReg ra).toNat + 2 ^ 16 - (s.readReg rb).toNat) % 2 ^ 16 ∧ SameButReg ra s t

/-- R103: and, bit by bit. -/
def Obligations.AndIsBitwise : Prop :=
  DecodesRR .and .and ∧ ∀ ra rb s, ∃ t, exec (.and ra rb) s = .next t ∧
    (∀ n, (t.readReg ra).getLsbD n = ((s.readReg ra).getLsbD n && (s.readReg rb).getLsbD n)) ∧ SameButReg ra s t

/-- R104: or, bit by bit. -/
def Obligations.OrIsBitwise : Prop :=
  DecodesRR .or .or ∧ ∀ ra rb s, ∃ t, exec (.or ra rb) s = .next t ∧
    (∀ n, (t.readReg ra).getLsbD n = ((s.readReg ra).getLsbD n || (s.readReg rb).getLsbD n)) ∧ SameButReg ra s t

/-- R110: sl moves every bit up by one, 0 into bit 0; the result is (2 * x[ra]) mod 2^16. -/
def Obligations.SlShiftsLeftByOne : Prop :=
  DecodesR .sl .sl ∧ ∀ ra s, ∃ t, exec (.sl ra) s = .next t ∧
    (t.readReg ra).getLsbD 0 = false ∧
    (∀ n, n < 15 → (t.readReg ra).getLsbD (n + 1) = (s.readReg ra).getLsbD n) ∧
    (t.readReg ra).toNat = (2 * (s.readReg ra).toNat) % 2 ^ 16 ∧ SameButReg ra s t

/-- R111: sr moves every bit down by one, 0 into bit 15; the result is the unsigned half. -/
def Obligations.SrShiftsRightByOne : Prop :=
  DecodesR .sr .sr ∧ ∀ ra s, ∃ t, exec (.sr ra) s = .next t ∧
    (t.readReg ra).getLsbD 15 = false ∧
    (∀ n, n < 15 → (t.readReg ra).getLsbD n = (s.readReg ra).getLsbD (n + 1)) ∧
    (t.readReg ra).toNat = (s.readReg ra).toNat / 2 ∧ SameButReg ra s t

/-- R112 (with R113): sra moves every bit down by one and keeps the operand's own bit 15; the result is
floor(v / 2) of the two's-complement value (Int division by 2 rounds down). -/
def Obligations.SraReplicatesTheSignBit : Prop :=
  DecodesR .sra .sra ∧ ∀ ra s, ∃ t, exec (.sra ra) s = .next t ∧
    (t.readReg ra).getLsbD 15 = (s.readReg ra).getLsbD 15 ∧
    (∀ n, n < 15 → (t.readReg ra).getLsbD n = (s.readReg ra).getLsbD (n + 1)) ∧
    (t.readReg ra).toInt = (s.readReg ra).toInt / 2 ∧ SameButReg ra s t

/-- R115: ldl replaces bits 7..0 and keeps bits 15..8. -/
def Obligations.LdlReplacesTheLowByte : Prop :=
  DecodesRK .ldl .ldl ∧ ∀ ra k s, ∃ t, exec (.ldl ra k) s = .next t ∧
    (t.readReg ra).toNat = (s.readReg ra).toNat / 256 * 256 + k.toNat ∧
    t.readReg ra = ((s.readReg ra &&& 0xFF00) ||| k.setWidth 16) ∧ SameButReg ra s t

/-- R116: ldh replaces bits 15..8 and keeps bits 7..0. -/
def Obligations.LdhReplacesTheHighByte : Prop :=
  DecodesRK .ldh .ldh ∧ ∀ ra k s, ∃ t, exec (.ldh ra k) s = .next t ∧
    (t.readReg ra).toNat = k.toNat * 256 + (s.readReg ra).toNat % 256 ∧
    t.readReg ra = (k.setWidth 16 <<< 8 ||| (s.readReg ra &&& 0x00FF)) ∧ SameButReg ra s t

/-- R120: cmp sets the flag to the equality of the two registers, always, and writes nothing else; no other
instruction writes the flag. -/
def Obligations.CmpSetsFlagToEquality : Prop :=
  DecodesRR .cmp .cmp ∧ ∀ ra rb s, ∃ t, exec (.cmp ra rb) s = .next t ∧
    (s.readReg ra = s.readReg rb → t.flag = true) ∧ (s.readReg ra ≠ s.readReg rb → t.flag = false) ∧
    SameButFlag s t ∧ ∀ i u v, exec i u = .next v → (∀ c d, i ≠ .cmp c d) → v.flag = u.flag

/-- R121: je with the flag true sets the pc to the address, zero-extended (decision D4, log entry 6); with the
flag false the pc stays index + 1. The flag is kept. -/
def Obligations.JeJumpsExactlyWhenFlagIsTrue : Prop :=
  (DecodesTo .je fun w => .je (fieldImm8 w)) ∧ ∀ k s, ∃ t, exec (.je k) s = .next t ∧
    (s.flag = true → t.pc.toNat = k.toNat) ∧ (s.flag = false → t = s) ∧ SameButPc s t

/-- R122: jmp sets the pc to the address, zero-extended (decision D4, log entry 6), and nothing else. -/
def Obligations.JmpSetsPcToTheAddress : Prop :=
  (DecodesTo .jmp fun w => .jmp (fieldImm8 w)) ∧ ∀ k s, ∃ t, exec (.jmp k) s = .next t ∧
    t.pc.toNat = k.toNat ∧ SameButPc s t

/-- R125: ld copies the data word at its address to x[ra]; the Data Store is unchanged, at reset every word of it
reads 0, and a ld right after a st to the same address gives the stored value. -/
def Obligations.LdReadsTheDataWord : Prop :=
  DecodesRK .ld .ld ∧ (∀ k, State.reset.dmemRead k = 0) ∧ ∀ ra k s, ∃ t, exec (.ld ra k) s = .next t ∧
    t.readReg ra = s.dmemRead k ∧ SameButReg ra s t ∧
    ∀ rb u, exec (.st rb k) u = .next s → t.readReg ra = u.readReg rb

/-- R126: st copies x[ra] to the data word at its address; every other word, and every byte outside that word's
two cells, is as before, and so is everything else. -/
def Obligations.StWritesOnlyItsDataWord : Prop :=
  DecodesRK .st .st ∧ ∀ ra k s, ∃ t, exec (.st ra k) s = .next t ∧
    t.dmemRead (dataAddress k) = s.readReg ra ∧
    (∀ a, a ≠ dataAddress k → t.dmemRead a = s.dmemRead a) ∧ SameButData (dataAddress k) s t

/-- R130: hlt sets run_state to HALTED and leaves everything else, the pc at index + 1 with it; the result is
Success, and no later cycle changes anything (decision D9, log entry 8). -/
def Obligations.HltEndsTheRunSuccessfully : Prop :=
  (DecodesTo .hlt fun _ => .hlt) ∧ ∀ s, ∃ t, exec .hlt s = .next t ∧
    t.runState = .halted ∧ t.faultKind = s.faultKind ∧ SameButEngine s t ∧ t.result = some .success ∧
    step t = .next t

/-! ### Relations between instructions -/

/-- R105 (the signed reading is marked derived there): add and sub give the bits of the two's-complement result,
and signed overflow wraps. -/
def Obligations.AddSubWrapAlsoWhenReadSigned : Prop :=
  ∀ ra rb s, ∃ t u, exec (.add ra rb) s = .next t ∧ exec (.sub ra rb) s = .next u ∧
    (t.readReg ra).toInt = ((s.readReg ra).toInt + (s.readReg rb).toInt).bmod (2 ^ 16) ∧
    (u.readReg ra).toInt = ((s.readReg ra).toInt - (s.readReg rb).toInt).bmod (2 ^ 16)

/-- R117 and R75 (marked derived there): ldh and ldl in either order build a constant whatever the register held,
and nop changes nothing but the pc, which exec leaves at index + 1. -/
def Obligations.ByteLoadsBuildAConstantInEitherOrder : Prop :=
  (∀ ra h l s, ∃ t u t' u', exec (.ldh ra h) s = .next t ∧ exec (.ldl ra l) t = .next u ∧
    exec (.ldl ra l) s = .next t' ∧ exec (.ldh ra h) t' = .next u' ∧ u = u' ∧
    (u.readReg ra).toNat = h.toNat * 256 + l.toNat ∧ SameButReg ra s u) ∧
  (∀ ra v, pseudoLi ra v = [.ldh ra (BitVec.ofNat 8 (v.toNat / 256)), .ldl ra (BitVec.ofNat 8 v.toNat)]) ∧
  (∀ s, exec pseudoNop s = .next s)

/-- R53 (the read-value rule is marked derived there): a ld returns the value of the last st to its address, with
any run of instructions between them that holds no other st to it. -/
def Obligations.LoadReturnsTheMostRecentStore : Prop :=
  ∀ (between : List Instr) (ra rb : RegIdx) (a : Addr8) (s t u : State),
    exec (.st ra a) s = .next t →
    (∀ i ∈ between, i.storesTo ≠ some a) →
    between.foldlM (fun v i => match exec i v with | .next v' => some v' | _ => none) t = some u →
    ∃ v, exec (.ld rb a) u = .next v ∧ v.readReg rb = s.readReg ra

/-! ### Frames over all instructions -/

/-- R22 (marked derived there): what an instruction writes among the registers is at most its destination, and a
register it does not read has no influence on anything else it does. -/
def Obligations.InstructionsReadAndWriteOnlyListedRegisters : Prop :=
  ∀ (i : Instr) (s : State), ∃ t, exec i s = .next t ∧
    (∀ j, i.writes ≠ some j → t.readReg j = s.readReg j) ∧
    (∀ r v, i.reads r = false →
      exec i (s.writeReg r v) = .next (if i.writes = some r then t else t.writeReg r v))

/-- R32, but for the flag's reset value: a step that changes the flag executes a cmp, and only je's effect depends
on the flag. -/
def Obligations.FlagWrittenOnlyByCmpReadOnlyByJe : Prop :=
  (∀ s t, step s = .next t → t.flag ≠ s.flag →
    ∃ ir ra rb, s.prog[s.pc.toNat]? = some ir ∧ decode ir = .ok (.cmp ra rb)) ∧
  (∀ ra rb s b, exec (.cmp ra rb) (s.setFlag b) = exec (.cmp ra rb) s) ∧
  (∀ i s b, (∀ k, i ≠ .je k) → (∀ ra rb, i ≠ .cmp ra rb) →
    ∃ t, exec i s = .next t ∧ exec i (s.setFlag b) = .next (t.setFlag b))

/-- R126 with R45 and R46: no instruction changes a byte of the Data Store outside the two cells of the word it
stores to; what stores nothing changes none. -/
def Obligations.OnlyStChangesTheDataStore : Prop :=
  ∀ (i : Instr) (s t : State), exec i s = .next t →
    (∀ b : Nat, (∀ a, i.storesTo = some a → b ≠ lowCell a ∧ b ≠ highCell a) →
      t.dmem.readByte b = s.dmem.readByte b) ∧
    (t.dmem ≠ s.dmem → ∃ ra k, i = .st ra k)

/-- R28 and R84 (zero extension: decision D4, log entry 6): an instruction leaves the pc at index + 1 but for a
taken jump, which overwrites it with its address. -/
def Obligations.PcIsSequentialButForTakenJumps : Prop :=
  ∀ (i : Instr) (s : State), ∃ t, exec i s = .next t ∧
    match i.jumpsTo s.flag with
    | none => t.pc = s.pc
    | some k => t.pc.toNat = k.toNat

/-- R88 and R143: once decoded, every operation completes; none raises a fault, and the engine stays as it was
but for hlt. -/
def Obligations.NoOperationFaultsOnceDecoded : Prop :=
  ∀ (i : Instr) (s : State), ∃ t, exec i s = .next t ∧ t.faultKind = s.faultKind ∧
    (i = .hlt → t.runState = .halted) ∧ (i ≠ .hlt → t.runState = s.runState)

/-- R41 (the length bound is decision D3, log entry 1): construction takes any image the spec admits, also the
empty one; no step writes the Program Store, and no instruction reads it as data. -/
def Obligations.ProgramStoreIsReadOnly : Prop :=
  (∀ img : List Word, img.length ≤ 65535 → ∃ s, construct img = .next s ∧ s.prog = img) ∧
  (∀ s t, step s = .next t → t.prog = s.prog) ∧
  (∀ i s p, ∃ t, exec i s = .next t ∧ exec i { s with prog := p } = .next { t with prog := p })

/-! ### The cycle and the faults -/

/-- R82: a fetch in range reads the word at the pc and advances the pc by 1 before the word is decoded and executed;
what the word decodes to runs on the advanced state. That the increment does not wrap is R30 (marked derived
there, on decision D3; log entries 1 and 4), and the pc after a word that does not decode is R85's derivation
(log entry 14). -/
def Obligations.StepRunsTheDecodedInstruction : Prop :=
  ∀ (s : State) (ir : Word), s.runState = .running → ImageFits s.prog → s.prog[s.pc.toNat]? = some ir →
    (s.pc + 1).toNat = s.pc.toNat + 1 ∧
    (∀ i, decode ir = .ok i → step s = exec i { s with pc := s.pc + 1 }) ∧
    (∀ e, decode ir = .error e → ∃ t, step s = .next t ∧ t.pc = s.pc + 1)

/-- R83 and R141 (the pc's value is marked derived there): a fetch at or past the end makes the core FAULTED with
kind FETCH and changes nothing else, the pc with it. -/
def Obligations.FetchPastTheEndFaults : Prop :=
  ∀ s : State, s.runState = .running → ImageFits s.prog → s.prog.length ≤ s.pc.toNat →
    ∃ t, step s = .next t ∧ t.runState = .faulted ∧ t.faultKind = .fetch ∧ t.pc = s.pc ∧
      SameButEngine s t ∧ t.faultIndex = some s.pc

/-- R85 and R142 (the pc's value is marked derived there): an undefined word makes the core FAULTED with kind
DECODE, leaves the pc at its index + 1, and writes no register, flag or data word. -/
def Obligations.UndefinedWordFaults : Prop :=
  ∀ (s : State) (ir : Word) (e : DecodeError), s.runState = .running → ImageFits s.prog →
    s.prog[s.pc.toNat]? = some ir → decode ir = .error e →
    ∃ t, step s = .next t ∧ t.runState = .faulted ∧ t.faultKind = .decode ∧ t.pc.toNat = s.pc.toNat + 1 ∧
      SameButEngine { s with pc := s.pc + 1 } t ∧ t.faultIndex = some s.pc

/-- R140: a RUNNING core's step faults exactly for a pc past the program's end (a fetch fault) or a word whose
selector is not defined (a decode fault); nothing else stops it abnormally, and no later step leaves the
fault. -/
def Obligations.ExactlyTwoFaultsBothUnrecoverable : Prop :=
  ∀ s : State, s.runState = .running → s.faultKind = .none → ImageFits s.prog →
    ∃ t, step s = .next t ∧
      (t.faultKind = .fetch ↔ s.prog.length ≤ s.pc.toNat) ∧
      (t.faultKind = .decode ↔ ∃ ir, s.prog[s.pc.toNat]? = some ir ∧ opcodeOf (fieldSel ir) = none) ∧
      (t.runState = .faulted ↔ t.faultKind ≠ .none) ∧
      (t.runState = .faulted → ∀ n, ∃ u, core.run n t = .next u ∧ u.runState = .faulted ∧ u.faultKind = t.faultKind)

/-- R81 (decision D9, log entry 8): a core that is HALTED or FAULTED changes nothing, in any number of cycles. -/
def Obligations.TerminalCoreNeverChanges : Prop :=
  ∀ (s : State) (n : Nat), s.runState ≠ .running → core.run n s = .next s

/-- R91 (marked derived there): the last word of a program, if it is neither hlt nor a taken jump, leaves the pc
at PROG_LEN and the next cycle raises FetchFault; a hlt there ends the run without a fault. -/
def Obligations.FallingOffTheEndFaultsUnlessHalted : Prop :=
  ∀ (s : State) (ir : Word) (i : Instr), s.runState = .running → ImageFits s.prog →
    s.prog[s.pc.toNat]? = some ir → decode ir = .ok i → s.pc.toNat + 1 = s.prog.length →
    i.jumpsTo s.flag = none →
    ∃ t, step s = .next t ∧ t.pc.toNat = s.prog.length ∧
      (i ≠ .hlt → t.runState = .running ∧
        ∃ u, step t = .next u ∧ u.runState = .faulted ∧ u.faultKind = .fetch ∧ u.pc = t.pc) ∧
      (i = .hlt → t.runState = .halted ∧ step t = .next t)

/-- R123 and R166 (marked derived there; zero extension: decision D4, log entry 6): after a taken jump to k the
next fetch is at index k, so a target at or past the end faults in the next cycle with pc = k, and any other
target runs the word at k, not the one after the jump. -/
def Obligations.TakenJumpFetchesNextAtItsTarget : Prop :=
  ∀ (s : State) (ir : Word) (i : Instr) (k : Addr8), s.runState = .running → ImageFits s.prog →
    s.prog[s.pc.toNat]? = some ir → decode ir = .ok i → i.jumpsTo s.flag = some k →
    ∃ t, step s = .next t ∧ t.runState = .running ∧ t.pc.toNat = k.toNat ∧ t.prog = s.prog ∧
      (s.prog.length ≤ k.toNat → ∃ u, step t = .next u ∧ u.faultKind = .fetch ∧ u.pc.toNat = k.toNat) ∧
      (∀ ir' i', s.prog[k.toNat]? = some ir' → decode ir' = .ok i' →
        step t = exec i' { t with pc := t.pc + 1 })

/-- R90 with R121 and R122: a jump to its own index, taken, runs for ever; the model stops at no number of
cycles. -/
def Obligations.SelfJumpRunsForEver : Prop :=
  ∀ (s : State) (ir : Word) (i : Instr) (k : Addr8), s.runState = .running → ImageFits s.prog →
    s.prog[s.pc.toNat]? = some ir → decode ir = .ok i → i.jumpsTo s.flag = some k → k.toNat = s.pc.toNat →
    ∀ n, core.run n s = .next s

/-- R89 (the encoding of the result is decision D8): the result of a run, read off run_state and fault_kind. -/
def Obligations.RunResultIsReadOffTheStatus : Prop :=
  ∀ s : State, FaultKindAgrees s →
    (s.result = none ↔ s.runState = .running) ∧
    (s.result = some .success ↔ s.runState = .halted) ∧
    (s.result = some .fetchFault ↔ s.runState = .faulted ∧ s.faultKind = .fetch) ∧
    (s.result = some .decodeFault ↔ s.runState = .faulted ∧ s.faultKind = .decode)

/-- R34, R35 and R155 (decision D8): the codes the two status outputs drive; 3 is never driven, and fault_kind is
not 0 exactly when run_state is 2. -/
def Obligations.StatusOutputCodes : Prop :=
  RunState.code .running = 0 ∧ RunState.code .halted = 1 ∧ RunState.code .faulted = 2 ∧
    FaultKind.code .none = 0 ∧ FaultKind.code .fetch = 1 ∧ FaultKind.code .decode = 2 ∧
    ∀ s : State, s.runState.code ≠ 3 ∧ s.faultKind.code ≠ 3 ∧
      (FaultKindAgrees s → (s.faultKind.code ≠ 0 ↔ s.runState.code = 2))

/-! ### Invariants, reset and construction -/

/-- Every step keeps the invariant: an admitted program, a canonical Data Store, fault_kind in agreement with
run_state (R34), and a pc at most PROG_LEN or 255 (R27, R30; C1). -/
def Obligations.EveryStepKeepsTheInvariant : Prop :=
  ∀ s t : State, Inv s → step s = .next t → Inv t

/-- The invariant holds at reset, after every construction, and after a reset cycle from any state whose program
is admitted (R161; its bound on images is decision D3, log entry 1). -/
def Obligations.InvariantHoldsAtReset : Prop :=
  Inv State.reset ∧ (∀ img s, construct img = .next s → Inv s) ∧
    ∀ s : State, ImageFits s.prog → Inv (resetCycle s)

/-- From a state of the invariant a step always answers a next state: neither a fault nor a refusal stops the
model. -/
def Obligations.EveryCycleOfAnAdmittedProgramAnswers : Prop :=
  ∀ (s : State) (n : Nat), Inv s → ∃ t, core.run n s = .next t ∧ Inv t

/-- R24: at reset, and so after any construction, every general register holds 0. -/
def Obligations.RegistersAreZeroAtReset : Prop :=
  ∀ j : RegIdx, State.reset.readReg j = 0 ∧ ∀ img s, construct img = .next s → s.readReg j = 0

/-- R160 and R161 (the signal is decision D10, the flag's value D2, log entries 3 and 11): a cycle with rst = 1
gives every state its reset value whatever run_state is, and keeps PROG; with rst = 0 it is a step. -/
def Obligations.ResetCycleRestoresEveryState : Prop :=
  ∀ s : State, step s = clock false s ∧ ∃ t, clock true s = .next t ∧ (∀ j, t.readReg j = 0) ∧ t.pc = 0 ∧
    t.flag = false ∧ (∀ a, t.dmemRead a = 0) ∧ t.prog = s.prog ∧ t.runState = .running ∧ t.faultKind = .none

/-- R8, R163 and I8 (decision D3, log entry 1): a program longer than 2^16 - 1 words is refused by construction,
and a RUNNING core that holds one is refused too. -/
def Obligations.OverlongProgramIsRefused : Prop :=
  (∀ img : List Word, 65535 < img.length → construct img = .refused .programTooLong) ∧
    ∀ s : State, s.runState = .running → 65535 < s.prog.length → step s = .refused .programTooLong

/-! ### Register file and Data Store -/

/-- R23: a register read after a write gives the value written, and a write has no side effect beyond the cell. -/
def Obligations.RegisterFileContract : Prop :=
  ∀ (s : State) (i : RegIdx) (v : Word), (s.writeReg i v).readReg i = v ∧ SameButReg i s (s.writeReg i v)

/-- R44: 256 words, zero at reset, each readable and writable independently of the others. -/
def Obligations.DataStoreWordsAreIndependent : Prop :=
  (∀ n : Nat, n < 256 ↔ ∃ a : Addr8, a.toNat = n) ∧ (∀ a, State.reset.dmemRead a = 0) ∧
    ∀ (s : State) (a : Addr8) (v : Word),
      (s.dmemWrite a v).dmemRead a = v ∧ ∀ b, b ≠ a → (s.dmemWrite a v).dmemRead b = s.dmemRead b

/-- The model's own (log entry 2): two Data Stores in canonical form that give the same 256 words are equal, so
equal memories are equal data. -/
def Obligations.CanonicalDataStoreIsItsWords : Prop :=
  ∀ m m' : Memory, m.wf → m'.wf → (∀ a : Addr8, m.readWord a = m'.readWord a) → m = m'

/-! ### The hardware blocks -/

/-- R25, R46, R70, R80, R84 (decisions D5 to D7, log entry 13): the single-cycle datapath, driven by the control
table through the register-file, program and data ports, makes the same state as a step, for every state whose
program the spec admits; with rst = 1 (R160; decision D10, log entry 11) it makes the same state as the clock's
reset cycle, from every state. -/
def Obligations.DatapathMakesTheSameCycle : Prop :=
  ∀ s : State, (ImageFits s.prog → step s = .next (datapathCycle false s)) ∧
    clock true s = .next (datapathCycle true s)

/-- R46, R47, R70 and R160 (decisions D5 to D7 and D10, log entries 11 and 13): a reset cycle makes no fetch and no
data access and drives no enable, whatever run_state is; without reset, no enable is driven outside RUNNING or in
a faulting cycle, never both data enables, and for an executed operation one fetch is made and exactly one of
rf_we, flag_we, dm_we and halt is driven, but for je and jmp, which drive none. -/
def Obligations.PortEnablesAreExclusive : Prop :=
  ∀ s : State,
    (cycleControl true s = idleControl ∧ fetchCount true s = 0 ∧ dataAccessCount true s = 0 ∧
      (regFilePorts true s).rfWe = false) ∧
    (s.runState ≠ .running →
      cycleControl false s = idleControl ∧ fetchCount false s = 0 ∧ dataAccessCount false s = 0) ∧
    (∀ k, cycleOperation s = .error k → cycleControl false s = idleControl) ∧
    dataAccessCount false s ≤ 1 ∧
    (∀ i, s.runState = .running → cycleOperation s = .ok i →
      fetchCount false s = 1 ∧
      (cycleControl false s).rfWe.toNat + (cycleControl false s).flagWe.toNat + (cycleControl false s).dmWe.toNat +
        (cycleControl false s).halt.toNat = (if i.opcode = .je ∨ i.opcode = .jmp then 0 else 1))
end

