-- ==== Sys2Proof/Laws/State.lean ====
section
/-!
SUPPORT. The small lemmas of the state's updates: what each update does to each field, and the laws of reading
a register after a write (spec/10_state.md R23).
-/

namespace Sys2Proof.Machine

/-! ### writeReg -/

@[simp] theorem State.writeReg_x (s : State) (i : RegIdx) (v : Word) : (s.writeReg i v).x = s.x.set i.toNat v i.isLt := rfl
@[simp] theorem State.writeReg_pc (s : State) (i : RegIdx) (v : Word) : (s.writeReg i v).pc = s.pc := rfl
@[simp] theorem State.writeReg_flag (s : State) (i : RegIdx) (v : Word) : (s.writeReg i v).flag = s.flag := rfl
@[simp] theorem State.writeReg_dmem (s : State) (i : RegIdx) (v : Word) : (s.writeReg i v).dmem = s.dmem := rfl
@[simp] theorem State.writeReg_prog (s : State) (i : RegIdx) (v : Word) : (s.writeReg i v).prog = s.prog := rfl
@[simp] theorem State.writeReg_runState (s : State) (i : RegIdx) (v : Word) : (s.writeReg i v).runState = s.runState := rfl
@[simp] theorem State.writeReg_faultKind (s : State) (i : RegIdx) (v : Word) : (s.writeReg i v).faultKind = s.faultKind := rfl

/-! ### setFlag -/

@[simp] theorem State.setFlag_x (s : State) (b : Bool) : (s.setFlag b).x = s.x := rfl
@[simp] theorem State.setFlag_pc (s : State) (b : Bool) : (s.setFlag b).pc = s.pc := rfl
@[simp] theorem State.setFlag_flag (s : State) (b : Bool) : (s.setFlag b).flag = b := rfl
@[simp] theorem State.setFlag_dmem (s : State) (b : Bool) : (s.setFlag b).dmem = s.dmem := rfl
@[simp] theorem State.setFlag_prog (s : State) (b : Bool) : (s.setFlag b).prog = s.prog := rfl
@[simp] theorem State.setFlag_runState (s : State) (b : Bool) : (s.setFlag b).runState = s.runState := rfl
@[simp] theorem State.setFlag_faultKind (s : State) (b : Bool) : (s.setFlag b).faultKind = s.faultKind := rfl

/-! ### dmemWrite -/

@[simp] theorem State.dmemWrite_x (s : State) (a : Addr8) (v : Word) : (s.dmemWrite a v).x = s.x := rfl
@[simp] theorem State.dmemWrite_pc (s : State) (a : Addr8) (v : Word) : (s.dmemWrite a v).pc = s.pc := rfl
@[simp] theorem State.dmemWrite_flag (s : State) (a : Addr8) (v : Word) : (s.dmemWrite a v).flag = s.flag := rfl
@[simp] theorem State.dmemWrite_dmem (s : State) (a : Addr8) (v : Word) : (s.dmemWrite a v).dmem = s.dmem.writeWord a v := rfl
@[simp] theorem State.dmemWrite_prog (s : State) (a : Addr8) (v : Word) : (s.dmemWrite a v).prog = s.prog := rfl
@[simp] theorem State.dmemWrite_runState (s : State) (a : Addr8) (v : Word) : (s.dmemWrite a v).runState = s.runState := rfl
@[simp] theorem State.dmemWrite_faultKind (s : State) (a : Addr8) (v : Word) : (s.dmemWrite a v).faultKind = s.faultKind := rfl

/-! ### setPc -/

@[simp] theorem State.setPc_x (s : State) (v : Word) : (s.setPc v).x = s.x := rfl
@[simp] theorem State.setPc_pc (s : State) (v : Word) : (s.setPc v).pc = v := rfl
@[simp] theorem State.setPc_flag (s : State) (v : Word) : (s.setPc v).flag = s.flag := rfl
@[simp] theorem State.setPc_dmem (s : State) (v : Word) : (s.setPc v).dmem = s.dmem := rfl
@[simp] theorem State.setPc_prog (s : State) (v : Word) : (s.setPc v).prog = s.prog := rfl
@[simp] theorem State.setPc_runState (s : State) (v : Word) : (s.setPc v).runState = s.runState := rfl
@[simp] theorem State.setPc_faultKind (s : State) (v : Word) : (s.setPc v).faultKind = s.faultKind := rfl

/-! ### advancePc -/

@[simp] theorem State.advancePc_x (s : State) : s.advancePc.x = s.x := rfl
@[simp] theorem State.advancePc_pc (s : State) : s.advancePc.pc = s.pc + 1 := rfl
@[simp] theorem State.advancePc_flag (s : State) : s.advancePc.flag = s.flag := rfl
@[simp] theorem State.advancePc_dmem (s : State) : s.advancePc.dmem = s.dmem := rfl
@[simp] theorem State.advancePc_prog (s : State) : s.advancePc.prog = s.prog := rfl
@[simp] theorem State.advancePc_runState (s : State) : s.advancePc.runState = s.runState := rfl
@[simp] theorem State.advancePc_faultKind (s : State) : s.advancePc.faultKind = s.faultKind := rfl

/-! ### halt -/

@[simp] theorem State.halt_x (s : State) : s.halt.x = s.x := rfl
@[simp] theorem State.halt_pc (s : State) : s.halt.pc = s.pc := rfl
@[simp] theorem State.halt_flag (s : State) : s.halt.flag = s.flag := rfl
@[simp] theorem State.halt_dmem (s : State) : s.halt.dmem = s.dmem := rfl
@[simp] theorem State.halt_prog (s : State) : s.halt.prog = s.prog := rfl
@[simp] theorem State.halt_runState (s : State) : s.halt.runState = .halted := rfl
@[simp] theorem State.halt_faultKind (s : State) : s.halt.faultKind = s.faultKind := rfl

/-! ### takeFault -/

@[simp] theorem State.takeFault_x (s : State) (k : FaultKind) : (s.takeFault k).x = s.x := rfl
@[simp] theorem State.takeFault_pc (s : State) (k : FaultKind) : (s.takeFault k).pc = s.pc := rfl
@[simp] theorem State.takeFault_flag (s : State) (k : FaultKind) : (s.takeFault k).flag = s.flag := rfl
@[simp] theorem State.takeFault_dmem (s : State) (k : FaultKind) : (s.takeFault k).dmem = s.dmem := rfl
@[simp] theorem State.takeFault_prog (s : State) (k : FaultKind) : (s.takeFault k).prog = s.prog := rfl
@[simp] theorem State.takeFault_runState (s : State) (k : FaultKind) : (s.takeFault k).runState = .faulted := rfl
@[simp] theorem State.takeFault_faultKind (s : State) (k : FaultKind) : (s.takeFault k).faultKind = k := rfl

/-! ### Reading through an update -/

/-- A register read after a register write (R23). -/
theorem State.readReg_writeReg (s : State) (i j : RegIdx) (v : Word) :
    (s.writeReg i v).readReg j = if j = i then v else s.readReg j := by
  simp only [State.readReg, State.writeReg, Vector.getElem_set, BitVec.toNat_inj]
  by_cases h : j = i
  · subst h; simp
  · have h' : i ≠ j := fun e => h e.symm
    simp [h, h']

@[simp] theorem State.readReg_writeReg_same (s : State) (i : RegIdx) (v : Word) :
    (s.writeReg i v).readReg i = v := by
  simp [State.readReg_writeReg]

theorem State.readReg_writeReg_other (s : State) (i : RegIdx) (v : Word) {j : RegIdx} (h : j ≠ i) :
    (s.writeReg i v).readReg j = s.readReg j := by
  simp [State.readReg_writeReg, h]

@[simp] theorem State.setFlag_readReg (s : State) (b : Bool) (j : RegIdx) : (s.setFlag b).readReg j = s.readReg j := rfl
@[simp] theorem State.dmemWrite_readReg (s : State) (a : Addr8) (v : Word) (j : RegIdx) : (s.dmemWrite a v).readReg j = s.readReg j := rfl
@[simp] theorem State.setPc_readReg (s : State) (v : Word) (j : RegIdx) : (s.setPc v).readReg j = s.readReg j := rfl
@[simp] theorem State.advancePc_readReg (s : State) (j : RegIdx) : s.advancePc.readReg j = s.readReg j := rfl
@[simp] theorem State.halt_readReg (s : State) (j : RegIdx) : s.halt.readReg j = s.readReg j := rfl
@[simp] theorem State.takeFault_readReg (s : State) (k : FaultKind) (j : RegIdx) : (s.takeFault k).readReg j = s.readReg j := rfl
@[simp] theorem State.writeReg_dmemRead (s : State) (i : RegIdx) (v : Word) (d : Addr8) : (s.writeReg i v).dmemRead d = s.dmemRead d := rfl
@[simp] theorem State.setFlag_dmemRead (s : State) (b : Bool) (d : Addr8) : (s.setFlag b).dmemRead d = s.dmemRead d := rfl
@[simp] theorem State.setPc_dmemRead (s : State) (v : Word) (d : Addr8) : (s.setPc v).dmemRead d = s.dmemRead d := rfl
@[simp] theorem State.advancePc_dmemRead (s : State) (d : Addr8) : s.advancePc.dmemRead d = s.dmemRead d := rfl
@[simp] theorem State.halt_dmemRead (s : State) (d : Addr8) : s.halt.dmemRead d = s.dmemRead d := rfl
@[simp] theorem State.takeFault_dmemRead (s : State) (k : FaultKind) (d : Addr8) : (s.takeFault k).dmemRead d = s.dmemRead d := rfl

/-- A register at reset holds 0 (R24). -/
@[simp] theorem State.reset_readReg (i : RegIdx) : State.reset.readReg i = 0 := by
  simp [State.readReg, State.reset]

/-- Writing the value a register holds changes nothing. -/
@[simp] theorem State.writeReg_readReg (s : State) (i : RegIdx) : s.writeReg i (s.readReg i) = s := by
  simp [State.writeReg, State.readReg]

/-- The last of two writes to a register stands. -/
@[simp] theorem State.writeReg_writeReg_same (s : State) (i : RegIdx) (v w : Word) :
    (s.writeReg i v).writeReg i w = s.writeReg i w := by
  simp [State.writeReg]

/-- Writes to different registers commute. -/
theorem State.writeReg_writeReg_comm (s : State) {i j : RegIdx} (v w : Word) (h : i ≠ j) :
    (s.writeReg i v).writeReg j w = (s.writeReg j w).writeReg i v := by
  have h' : i.toNat ≠ j.toNat := fun e => h (BitVec.eq_of_toNat_eq e)
  simp only [State.writeReg]
  rw [Vector.set_comm _ _ h']

end Sys2Proof.Machine
end

