-- ==== Sys2Proof/Laws/Memory.lean ====
section
/-!
SUPPORT. The Data Store: what a read gives after a write, and that every write keeps the canonical form
(spec/20_memory.md R44, R45). The read laws hold of every list, canonical or not.
-/

namespace Sys2Proof.Machine

/-! ### Reads after writes, byte by byte -/

theorem Memory.readByte_filter_same (m : Memory) (a : Nat) :
    Memory.readByte (m.filter fun c => c.1 != a) a = Config.unwrittenByte := by
  induction m with
  | nil => rfl
  | cons c m ih =>
    by_cases h : c.1 = a
    · simpa [List.filter_cons, h] using ih
    · simpa [List.filter_cons, h, Memory.readByte] using ih

theorem Memory.readByte_filter_other (m : Memory) {a b : Nat} (h : b ≠ a) :
    Memory.readByte (m.filter fun c => c.1 != a) b = m.readByte b := by
  induction m with
  | nil => rfl
  | cons c m ih =>
    by_cases hc : c.1 = a
    · have hb : ¬ c.1 = b := fun e => h (e.symm.trans hc)
      simpa [List.filter_cons, hc, Memory.readByte, h.symm] using ih
    · simp only [List.filter_cons, bne_iff_ne, ne_eq, hc, not_false_eq_true, ↓reduceIte,
        Memory.readByte, ih]

/-- A cell inserted where no cell of its address stands is what its address reads as; every other address
reads as before. -/
theorem Memory.readByte_insertCell (m : Memory) (a b : Nat) (v : Byte) (hm : ∀ c ∈ m, c.1 ≠ a) :
    (Memory.insertCell a v m).readByte b = if b = a then v else m.readByte b := by
  induction m with
  | nil => by_cases h : a = b <;> simp [Memory.insertCell, Memory.readByte, h, eq_comm]
  | cons c m ih =>
    have hc : c.1 ≠ a := hm c (by simp)
    have ih := ih fun d hd => hm d (by simp [hd])
    unfold Memory.insertCell
    split
    · by_cases h : a = b
      · simp [Memory.readByte, h]
      · simp [Memory.readByte, h, Ne.symm h]
    · by_cases h : c.1 = b
      · have : b ≠ a := fun e => hc (h.trans e)
        simp [Memory.readByte, h, this]
      · simp [Memory.readByte, h, ih]

/-- A byte read after a byte write. -/
theorem Memory.readByte_writeByte (m : Memory) (a b : Nat) (v : Byte) :
    (m.writeByte a v).readByte b = if b = a then v else m.readByte b := by
  have hm : ∀ c ∈ m.filter (fun c => c.1 != a), c.1 ≠ a := fun c hc => by simpa using (List.mem_filter.mp hc).2
  unfold Memory.writeByte
  by_cases hv : v = Config.unwrittenByte
  · by_cases h : b = a
    · subst h hv; simp [Memory.readByte_filter_same]
    · simp [hv, h, Memory.readByte_filter_other m h]
  · rw [if_neg hv, Memory.readByte_insertCell _ _ _ _ hm]
    by_cases h : b = a
    · simp [h]
    · simp [h, Memory.readByte_filter_other m h]

/-! ### Word accesses -/

theorem lowCell_ne_highCell (a b : Addr8) : lowCell a ≠ highCell b := by
  simp only [lowCell, highCell]; omega

theorem lowCell_inj {a b : Addr8} : lowCell a = lowCell b ↔ a = b := by
  simp only [lowCell, ← BitVec.toNat_inj]; omega

theorem highCell_inj {a b : Addr8} : highCell a = highCell b ↔ a = b := by
  simp only [highCell, ← BitVec.toNat_inj]; omega

/-- One byte read after a word write: the two cells of the word, and every other byte as before. -/
theorem Memory.readByte_writeWord (m : Memory) (a : Addr8) (v : Word) (b : Nat) :
    (m.writeWord a v).readByte b =
      if b = highCell a then v.extractLsb' 8 8
      else if b = lowCell a then v.extractLsb' 0 8 else m.readByte b := by
  simp [Memory.writeWord, Memory.readByte_writeByte]

/-- The two bytes of a word put together give the word. -/
theorem word_of_bytes (v : Word) : v.extractLsb' 8 8 ++ v.extractLsb' 0 8 = v := by
  ext i hi
  simp only [BitVec.getElem_append, BitVec.getElem_extractLsb']
  split
  · simp [BitVec.getLsbD_eq_getElem hi]
  · simp only [show 8 + (i - 8) = i by omega, BitVec.getLsbD_eq_getElem hi]

/-- A word read after a word write. -/
theorem Memory.readWord_writeWord (m : Memory) (a b : Addr8) (v : Word) :
    (m.writeWord a v).readWord b = if b = a then v else m.readWord b := by
  simp only [Memory.readWord, Memory.readByte_writeWord, highCell_inj, lowCell_inj,
    lowCell_ne_highCell, (lowCell_ne_highCell a b).symm, if_false]
  by_cases h : b = a
  · simpa [h] using word_of_bytes v
  · simp [h]

theorem State.dmemRead_dmemWrite (s : State) (a b : Addr8) (v : Word) :
    (s.dmemWrite a v).dmemRead b = if b = a then v else s.dmemRead b :=
  Memory.readWord_writeWord s.dmem a b v

@[simp] theorem State.dmemRead_dmemWrite_same (s : State) (a : Addr8) (v : Word) :
    (s.dmemWrite a v).dmemRead a = v := by
  simp [State.dmemRead_dmemWrite]

/-- Every data word reads 0 at reset (R44). -/
@[simp] theorem State.reset_dmemRead (a : Addr8) : State.reset.dmemRead a = 0 := by
  simp [State.dmemRead, State.reset, Memory.readWord, Memory.readByte, Config.unwrittenByte]

/-! ### The canonical form -/

theorem Memory.mem_insertCell {a : Nat} {v : Byte} {m : Memory} {c : Host.Cell} :
    c ∈ Memory.insertCell a v m ↔ c = (a, v) ∨ c ∈ m := by
  induction m with
  | nil => simp [Memory.insertCell]
  | cons d m ih =>
    unfold Memory.insertCell
    split
    · simp
    · simp only [List.mem_cons, ih]; tauto

theorem Memory.pairwise_insertCell {a : Nat} {v : Byte} {m : Memory}
    (hm : m.Pairwise fun c d => c.1 < d.1) (ha : ∀ c ∈ m, c.1 ≠ a) :
    (Memory.insertCell a v m).Pairwise fun c d => c.1 < d.1 := by
  induction m with
  | nil => simp [Memory.insertCell]
  | cons d m ih =>
    rw [List.pairwise_cons] at hm
    have hd : d.1 ≠ a := ha d (by simp)
    unfold Memory.insertCell
    split
    · rename_i h
      refine List.pairwise_cons.mpr ⟨?_, List.pairwise_cons.mpr hm⟩
      intro c hc
      rcases List.mem_cons.mp hc with rfl | hc
      · exact h
      · exact h.trans (hm.1 c hc)
    · rename_i h
      refine List.pairwise_cons.mpr ⟨?_, ih hm.2 fun c hc => ha c (by simp [hc])⟩
      intro c hc
      rcases Memory.mem_insertCell.mp hc with rfl | hc
      · exact lt_of_le_of_ne (Nat.le_of_not_lt h) hd
      · exact hm.1 c hc

/-- A byte write inside the Data Store keeps the canonical form. -/
theorem Memory.writeByte_wf {m : Memory} (hm : m.wf) {a : Nat} (ha : a < 2 * Config.dataWords) (v : Byte) :
    (m.writeByte a v).wf := by
  have hf : Memory.wf (m.filter fun c => c.1 != a) :=
    ⟨hm.1.filter _, fun c hc => hm.2 c (List.mem_filter.mp hc).1⟩
  have hne : ∀ c ∈ m.filter (fun c => c.1 != a), c.1 ≠ a := fun c hc => by simpa using (List.mem_filter.mp hc).2
  unfold Memory.writeByte
  by_cases hv : v = Config.unwrittenByte
  · simpa only [if_pos hv] using hf
  · simp only [if_neg hv]
    refine ⟨Memory.pairwise_insertCell hf.1 hne, fun c hc => ?_⟩
    rcases Memory.mem_insertCell.mp hc with rfl | hc
    · exact ⟨ha, hv⟩
    · exact hf.2 c hc

/-- A word write keeps the canonical form. -/
theorem Memory.writeWord_wf {m : Memory} (hm : m.wf) (a : Addr8) (v : Word) : (m.writeWord a v).wf := by
  have ha : a.toNat < 256 := a.isLt
  refine Memory.writeByte_wf (Memory.writeByte_wf hm ?_ _) ?_ _ <;>
    simp only [lowCell, highCell, Config.dataWords] <;> omega

/-- The Data Store at reset is in its canonical form. -/
theorem State.reset_dmem_wf : State.reset.dmem.wf := by decide

end Sys2Proof.Machine
end

