-- ==== Sys2Proof/Laws/Operands.lean ====
section
/-!
SUPPORT. What the operand functions give, as numbers and bit by bit.
-/

namespace Sys2Proof.Machine

/-- A jump target is the 8-bit address as a number (spec/30_encoding.md R65). -/
@[simp] theorem jumpTarget_toNat (k : Addr8) : (jumpTarget k).toNat = k.toNat := by
  simp only [jumpTarget, BitVec.toNat_setWidth]
  exact Nat.mod_eq_of_lt (lt_trans k.isLt (by decide))

/-- The effective address is the field itself (spec/45_load_store.md R127). -/
@[simp] theorem dataAddress_eq (k : Addr8) : dataAddress k = k := rfl

/-- The mask form of ldl's result (spec/43_immediate.md R115). -/
theorem withLowByte_eq_mask (v : Word) (k : Byte) : withLowByte v k = (v &&& 0xFF00) ||| k.setWidth 16 := by
  apply BitVec.eq_of_getLsbD_eq
  intro i hi
  unfold withLowByte
  erw [BitVec.getLsbD_append]
  interval_cases i <;> simp

/-- The mask form of ldh's result (spec/43_immediate.md R116). -/
theorem withHighByte_eq_mask (v : Word) (k : Byte) :
    withHighByte v k = k.setWidth 16 <<< 8 ||| (v &&& 0x00FF) := by
  apply BitVec.eq_of_getLsbD_eq
  intro i hi
  unfold withHighByte
  erw [BitVec.getLsbD_append]
  interval_cases i <;> simp

theorem withLowByte_toNat (v : Word) (k : Byte) :
    (withLowByte v k).toNat = v.toNat / 256 * 256 + k.toNat := by
  have := v.isLt
  have := k.isLt
  simp only [withLowByte, BitVec.toNat_append, BitVec.extractLsb'_toNat]
  rw [← Nat.shiftLeft_add_eq_or_of_lt (by omega)]
  simp [Nat.shiftRight_eq_div_pow, Nat.shiftLeft_eq]
  omega

theorem withHighByte_toNat (v : Word) (k : Byte) :
    (withHighByte v k).toNat = k.toNat * 256 + v.toNat % 256 := by
  have := v.isLt
  have := k.isLt
  simp only [withHighByte, BitVec.toNat_append, BitVec.extractLsb'_toNat]
  rw [← Nat.shiftLeft_add_eq_or_of_lt (by omega)]
  simp [Nat.shiftLeft_eq]

theorem shiftLeft1_toNat (v : Word) : (shiftLeft1 v).toNat = 2 * v.toNat % 2 ^ 16 := by
  simp [shiftLeft1, Nat.shiftLeft_eq, Nat.mul_comm]

theorem shiftRight1_toNat (v : Word) : (shiftRight1 v).toNat = v.toNat / 2 := by
  simp [shiftRight1, Nat.shiftRight_eq_div_pow]

/-- sra's mask form is the signed shift by one (spec/42_shift.md R112). -/
theorem shiftRightArith1_eq_sshiftRight (v : Word) : shiftRightArith1 v = v.sshiftRight 1 := by
  apply BitVec.eq_of_getLsbD_eq
  intro i hi
  interval_cases i <;>
    simp [shiftRightArith1, BitVec.getElem_sshiftRight, BitVec.msb_eq_getLsbD_last]

end Sys2Proof.Machine
end

