-- ==== Sys2Proof/Laws/Exec.lean ====
section
/-!
SUPPORT. What each instruction answers, one equation per constructor, so that a proof never unfolds exec or a
meaning.
-/

namespace Sys2Proof.Machine

@[simp] theorem exec_mov (ra rb : RegIdx) (s : State) :
    exec (.mov ra rb) s = .next (s.writeReg ra (s.readReg rb)) := rfl

@[simp] theorem exec_add (ra rb : RegIdx) (s : State) :
    exec (.add ra rb) s = .next (s.writeReg ra (s.readReg ra + s.readReg rb)) := rfl

@[simp] theorem exec_sub (ra rb : RegIdx) (s : State) :
    exec (.sub ra rb) s = .next (s.writeReg ra (s.readReg ra - s.readReg rb)) := rfl

@[simp] theorem exec_and (ra rb : RegIdx) (s : State) :
    exec (.and ra rb) s = .next (s.writeReg ra (s.readReg ra &&& s.readReg rb)) := rfl

@[simp] theorem exec_or (ra rb : RegIdx) (s : State) :
    exec (.or ra rb) s = .next (s.writeReg ra (s.readReg ra ||| s.readReg rb)) := rfl

@[simp] theorem exec_sl (ra : RegIdx) (s : State) :
    exec (.sl ra) s = .next (s.writeReg ra (shiftLeft1 (s.readReg ra))) := rfl

@[simp] theorem exec_sr (ra : RegIdx) (s : State) :
    exec (.sr ra) s = .next (s.writeReg ra (shiftRight1 (s.readReg ra))) := rfl

@[simp] theorem exec_sra (ra : RegIdx) (s : State) :
    exec (.sra ra) s = .next (s.writeReg ra (shiftRightArith1 (s.readReg ra))) := rfl

@[simp] theorem exec_ldl (ra : RegIdx) (imm8 : Byte) (s : State) :
    exec (.ldl ra imm8) s = .next (s.writeReg ra (withLowByte (s.readReg ra) imm8)) := rfl

@[simp] theorem exec_ldh (ra : RegIdx) (imm8 : Byte) (s : State) :
    exec (.ldh ra imm8) s = .next (s.writeReg ra (withHighByte (s.readReg ra) imm8)) := rfl

@[simp] theorem exec_cmp (ra rb : RegIdx) (s : State) :
    exec (.cmp ra rb) s = .next (s.setFlag (compareFlag (s.readReg ra) (s.readReg rb))) := rfl

@[simp] theorem exec_je (addr8 : Addr8) (s : State) :
    exec (.je addr8) s = .next (if s.flag then s.setPc (jumpTarget addr8) else s) := rfl

@[simp] theorem exec_jmp (addr8 : Addr8) (s : State) :
    exec (.jmp addr8) s = .next (s.setPc (jumpTarget addr8)) := rfl

@[simp] theorem exec_ld (ra : RegIdx) (addr8 : Addr8) (s : State) :
    exec (.ld ra addr8) s = .next (s.writeReg ra (s.dmemRead addr8)) := rfl

@[simp] theorem exec_st (ra : RegIdx) (addr8 : Addr8) (s : State) :
    exec (.st ra addr8) s = .next (s.dmemWrite addr8 (s.readReg ra)) := rfl

@[simp] theorem exec_hlt (s : State) : exec .hlt s = .next s.halt := rfl

/-- What any instruction can do: one register written, the flag, one data word, the pc set to a jump target,
a halt, or nothing (the je that is not taken). -/
theorem exec_cases {i : Instr} {s t : State} (h : exec i s = .next t) :
    (∃ ra v, t = s.writeReg ra v) ∨ (∃ b, t = s.setFlag b) ∨ (∃ a v, t = s.dmemWrite a v) ∨
      (∃ k, t = s.setPc (jumpTarget k)) ∨ t = s.halt ∨ t = s := by
  cases i <;> simp only [exec_mov, exec_add, exec_sub, exec_and, exec_or, exec_sl, exec_sr, exec_sra, exec_ldl,
    exec_ldh, exec_cmp, exec_je, exec_jmp, exec_ld, exec_st, exec_hlt, Host.Outcome.next.injEq] at h
  case cmp => exact .inr (.inl ⟨_, h.symm⟩)
  case st => exact .inr (.inr (.inl ⟨_, _, h.symm⟩))
  case jmp => exact .inr (.inr (.inr (.inl ⟨_, h.symm⟩)))
  case hlt => exact .inr (.inr (.inr (.inr (.inl h.symm))))
  case je k =>
    split at h
    · exact .inr (.inr (.inr (.inl ⟨k, h.symm⟩)))
    · exact .inr (.inr (.inr (.inr (.inr h.symm))))
  all_goals exact .inl ⟨_, _, h.symm⟩

end Sys2Proof.Machine
end

