-- ==== Sys2Proof/Laws/Cycle.lean ====
section
/-!
SUPPORT. What a cycle can do, said once: a terminal core stays, a fetch past the end faults, an undefined word
faults, any other word executes.
-/

namespace Sys2Proof.Machine

/-- Every way a step answers a next state. -/
theorem step_cases {s t : State} (h : step s = .next t) :
    (s.runState ≠ .running ∧ t = s) ∨
      (s.runState = .running ∧ ImageFits s.prog ∧ s.progLen ≤ s.pc.toNat ∧ t = s.takeFault .fetch) ∨
      (∃ ir e, s.runState = .running ∧ ImageFits s.prog ∧ s.progRead s.pc = some ir ∧
        decode ir = .error e ∧ t = s.advancePc.takeFault .decode) ∨
      (∃ ir i, s.runState = .running ∧ ImageFits s.prog ∧ s.progRead s.pc = some ir ∧
        decode ir = .ok i ∧ exec i s.advancePc = .next t) := by
  unfold step cycle at h
  split at h
  · rename_i hr
    exact .inl ⟨by simp [hr], by simpa using h.symm⟩
  · rename_i hr
    exact .inl ⟨by simp [hr], by simpa using h.symm⟩
  · rename_i hr
    split at h
    · rename_i hf
      unfold fetchCycle at h
      split at h
      · rename_i hp
        refine .inr (.inl ⟨hr, hf, ?_, by simpa using h.symm⟩)
        simpa [State.progRead, State.progLen] using hp
      · rename_i ir hp
        unfold decodeExecute at h
        split at h
        · rename_i i hd
          exact .inr (.inr (.inr ⟨ir, i, hr, hf, hp, hd, h⟩))
        · rename_i e hd
          exact .inr (.inr (.inl ⟨ir, e, hr, hf, hp, hd, by simpa using h.symm⟩))
    · cases h

/-- A word the Program Store gives stands below PROG_LEN. -/
theorem State.lt_of_progRead {s : State} {a ir : Word} (h : s.progRead a = some ir) : a.toNat < s.progLen := by
  unfold State.progRead at h
  exact (List.getElem?_eq_some_iff.mp h).1

/-- In a program the spec admits, the increment after a fetch does not wrap (R30). -/
theorem State.advancePc_toNat {s : State} {ir : Word} (hf : ImageFits s.prog) (h : s.progRead s.pc = some ir) :
    s.advancePc.pc.toNat = s.pc.toNat + 1 := by
  have h1 : s.pc.toNat < s.prog.length := State.lt_of_progRead h
  have h2 : s.prog.length ≤ 65535 := hf
  rw [State.advancePc_pc, BitVec.toNat_add]
  exact Nat.mod_eq_of_lt (by change s.pc.toNat + 1 < 65536; omega)

end Sys2Proof.Machine
end

