-- ==== Sys2Proof/Laws/Decode.lean ====
section
/-!
SUPPORT. The fields of an encoded word, part by part: a field of an OR is the OR of the fields, and each part
of a canonical word is zero in the fields that are not its own (spec/30_encoding.md R61, R62, R72).
-/

namespace Sys2Proof

/-- OPCODE_MAP is inverted by `opcodeOf`: no two operations share a selector (R66). -/
@[simp] theorem opcodeOf_selector (o : Opcode) : opcodeOf o.selector = some o := by cases o <;> rfl

/-- A selector that names an operation is that operation's (R66). -/
theorem selector_of_opcodeOf {sel : Selector} {o : Opcode} (h : opcodeOf sel = some o) : o.selector = sel := by
  have := List.find?_some h
  simpa using this

/-- A word with an operation's selector decodes to that operation, with the operands of its fields (R67, R68). -/
theorem decode_of_selector {ir : Word} {o : Opcode} (h : fieldSel ir = o.selector) :
    decode ir = .ok (operands o ir) := by
  simp [decode, h]

/-- Every answer of the decoder (R67). -/
theorem decode_cases (ir : Word) :
    (∃ o, fieldSel ir = o.selector ∧ decode ir = .ok (operands o ir)) ∨
      (opcodeOf (fieldSel ir) = none ∧ decode ir = .error (.unknownOperationCode (fieldSel ir))) := by
  cases h : opcodeOf (fieldSel ir) with
  | some o => exact .inl ⟨o, (selector_of_opcodeOf h).symm, by simp [decode, h]⟩
  | none => exact .inr ⟨rfl, by simp [decode, h]⟩

@[simp] theorem operands_opcode (o : Opcode) (ir : Word) : (operands o ir).opcode = o := by cases o <;> rfl

/-! ### Fields of an OR -/

@[simp] theorem fieldSel_or (v w : Word) : fieldSel (v ||| w) = fieldSel v ||| fieldSel w := BitVec.extractLsb'_or
@[simp] theorem fieldRa_or (v w : Word) : fieldRa (v ||| w) = fieldRa v ||| fieldRa w := BitVec.extractLsb'_or
@[simp] theorem fieldRb_or (v w : Word) : fieldRb (v ||| w) = fieldRb v ||| fieldRb w := BitVec.extractLsb'_or
@[simp] theorem fieldImm8_or (v w : Word) : fieldImm8 (v ||| w) = fieldImm8 v ||| fieldImm8 w := BitVec.extractLsb'_or

/-! ### The selector's part -/

@[simp] theorem fieldSel_encSel (o : Opcode) : fieldSel (encSel o) = o.selector := by cases o <;> rfl
@[simp] theorem fieldRa_encSel (o : Opcode) : fieldRa (encSel o) = 0 := by cases o <;> rfl
@[simp] theorem fieldRb_encSel (o : Opcode) : fieldRb (encSel o) = 0 := by cases o <;> rfl
@[simp] theorem fieldImm8_encSel (o : Opcode) : fieldImm8 (encSel o) = 0 := by cases o <;> rfl

/-! ### The register fields' parts -/

@[simp] theorem fieldSel_encRa (a : RegIdx) : fieldSel (encRa a) = 0 := by revert a; decide
@[simp] theorem fieldRa_encRa (a : RegIdx) : fieldRa (encRa a) = a := by revert a; decide
@[simp] theorem fieldRb_encRa (a : RegIdx) : fieldRb (encRa a) = 0 := by revert a; decide
@[simp] theorem fieldImm8_encRa (a : RegIdx) : fieldImm8 (encRa a) = 0 := by revert a; decide
@[simp] theorem fieldSel_encRb (b : RegIdx) : fieldSel (encRb b) = 0 := by revert b; decide
@[simp] theorem fieldRa_encRb (b : RegIdx) : fieldRa (encRb b) = 0 := by revert b; decide
@[simp] theorem fieldRb_encRb (b : RegIdx) : fieldRb (encRb b) = b := by revert b; decide

/-! ### The 8-bit field's part -/

@[simp] theorem fieldSel_imm8 (k : BitVec 8) : fieldSel (k.setWidth 16) = 0 := by revert k; decide
@[simp] theorem fieldRa_imm8 (k : BitVec 8) : fieldRa (k.setWidth 16) = 0 := by revert k; decide
@[simp] theorem fieldImm8_imm8 (k : BitVec 8) : fieldImm8 (k.setWidth 16) = k := by revert k; decide

/-! ### Parts under a keep mask (R74) -/

theorem or_and_eq_self {v w m : Word} (hv : v &&& m = v) (hw : w &&& m = w) : (v ||| w) &&& m = v ||| w := by
  have h : (v ||| w) &&& m = v &&& m ||| w &&& m := by
    ext i hi
    simp [Bool.and_or_distrib_right]
  rw [h, hv, hw]

theorem encSel_keep (o : Opcode) (s : Shape) : encSel o &&& s.keepMask = encSel o := by
  cases s <;> cases o <;> rfl

theorem imm8_keep (k : BitVec 8) (s : Shape) (h : s = .ri ∨ s = .ra ∨ s = .a) :
    k.setWidth 16 &&& s.keepMask = k.setWidth 16 := by
  rcases h with rfl | rfl | rfl <;> revert k <;> decide

theorem encRa_keep (a : RegIdx) (s : Shape) (h : s ≠ .a ∧ s ≠ .n) : encRa a &&& s.keepMask = encRa a := by
  cases s <;> first | (exact absurd rfl h.1) | (exact absurd rfl h.2) | (clear h; revert a; decide)

/-- The word of a register and an 8-bit field has no ignored bits. -/
theorem encRK_keep (o : Opcode) (a : RegIdx) (k : BitVec 8) (h : o.shape = .ri ∨ o.shape = .ra) :
    (encSel o ||| encRa a ||| k.setWidth 16) &&& o.shape.keepMask = encSel o ||| encRa a ||| k.setWidth 16 :=
  or_and_eq_self (or_and_eq_self (encSel_keep o _) (encRa_keep a _ (by rcases h with h | h <;> simp [h])))
    (imm8_keep k _ (by tauto))

/-- The word of an address alone has its register bits 0. -/
theorem encA_keep (o : Opcode) (k : BitVec 8) (h : o.shape = .a) :
    (encSel o ||| k.setWidth 16) &&& o.shape.keepMask = encSel o ||| k.setWidth 16 :=
  or_and_eq_self (encSel_keep o _) (imm8_keep k _ (by tauto))

end Sys2Proof
end

