-- ==== Sys2Proof/Laws/PerInstr.lean ====
section
/-!
SUPPORT. Statements about every instruction as syntax, one lemma per constructor. CanonicalWord: the word the
encoder gives carries the instruction's own selector, and every bit its shape ignores is 0
(spec/30_encoding.md R66, R72, R74).
-/

namespace Sys2Proof.Laws.CanonicalWord

/-- The encoder's word of `i` is defined, carries `i`'s selector, and has its ignored bits 0. -/
def Statement (i : Instr) : Prop :=
  i.wf = true ∧ opcodeOf (fieldSel (encode i)) = some i.opcode ∧
    encode i &&& i.opcode.shape.keepMask = encode i

theorem mov (ra rb : RegIdx) : Statement (.mov ra rb) := by revert ra rb; unfold Statement; decide
theorem add (ra rb : RegIdx) : Statement (.add ra rb) := by revert ra rb; unfold Statement; decide
theorem sub (ra rb : RegIdx) : Statement (.sub ra rb) := by revert ra rb; unfold Statement; decide
theorem and (ra rb : RegIdx) : Statement (.and ra rb) := by revert ra rb; unfold Statement; decide
theorem or (ra rb : RegIdx) : Statement (.or ra rb) := by revert ra rb; unfold Statement; decide
theorem sl (ra : RegIdx) : Statement (.sl ra) := by revert ra; unfold Statement; decide
theorem sr (ra : RegIdx) : Statement (.sr ra) := by revert ra; unfold Statement; decide
theorem sra (ra : RegIdx) : Statement (.sra ra) := by revert ra; unfold Statement; decide
theorem ldl (ra : RegIdx) (k : BitVec 8) : Statement (.ldl ra k) :=
  ⟨rfl, by simp [encode, Instr.opcode], encRK_keep .ldl ra k (.inl rfl)⟩
theorem ldh (ra : RegIdx) (k : BitVec 8) : Statement (.ldh ra k) :=
  ⟨rfl, by simp [encode, Instr.opcode], encRK_keep .ldh ra k (.inl rfl)⟩
theorem cmp (ra rb : RegIdx) : Statement (.cmp ra rb) := by revert ra rb; unfold Statement; decide
theorem je (k : BitVec 8) : Statement (.je k) :=
  ⟨rfl, by simp [encode, Instr.opcode], encA_keep .je k rfl⟩
theorem jmp (k : BitVec 8) : Statement (.jmp k) :=
  ⟨rfl, by simp [encode, Instr.opcode], encA_keep .jmp k rfl⟩
theorem ld (ra : RegIdx) (k : BitVec 8) : Statement (.ld ra k) :=
  ⟨rfl, by simp [encode, Instr.opcode], encRK_keep .ld ra k (.inr rfl)⟩
theorem st (ra : RegIdx) (k : BitVec 8) : Statement (.st ra k) :=
  ⟨rfl, by simp [encode, Instr.opcode], encRK_keep .st ra k (.inr rfl)⟩
theorem hlt : Statement .hlt := by unfold Statement; decide

end Sys2Proof.Laws.CanonicalWord
end

