-- ==== Sys2Proof/Tests/Slice0.lean ====
section
/-!
SUPPORT. Tests by hand. Expected values are those of spec/95_test_vectors.md and of the worked examples in the
rules; where a test is a witness that the premises of an obligation can be met, its name says so.
-/

namespace Sys2Proof.Tests

open Sys2Proof.Machine

/-- The next state, if that is what the outcome is. -/
def nextOf (o : Host.Outcome State Fault Refusal) : Option State :=
  match o with
  | .next s => some s
  | .fault _ => none
  | .refused _ => none

/-- A core constructed from a program. -/
def withProgram (img : List Word) : State := { State.reset with prog := img }

/-- Reset with x[0] and x[1] set. -/
def withRegs (a b : Word) : State := (State.reset.writeReg 0 a).writeReg 1 b

/-- What x[0] holds after an instruction that started from `withRegs a b`. -/
def x0After (i : Instr) (a b : Word) : Option Word := (nextOf (exec i (withRegs a b))).map fun t => t.readReg 0

/-! ### Well-formedness -/

/-- Every instruction is well formed: the types leave no ill-formed term (R62, R64). -/
theorem test_every_instr_wf : Instr.wf .hlt = true ∧ Instr.wf (.ldl 7 255) = true := by decide

theorem test_empty_image_fits : ImageFits [] := by decide

/-- An image of 2^16 words is refused by the check (R163). -/
theorem test_overlong_image_does_not_fit : ¬ ImageFits (List.replicate 65536 0) := by
  rw [ImageFits, List.length_replicate]
  decide

theorem test_longest_image_fits : ImageFits (List.replicate 65535 0) := by
  rw [ImageFits, List.length_replicate]
  decide

/-! ### Decoding: words written out from R61 and R66 (95_test_vectors.md 2.1 to 2.6) -/

theorem test_decode_register_ops :
    decode 0b0000000101000000 = .ok (.mov 1 2) ∧ decode 0b0000100101000000 = .ok (.add 1 2) ∧
    decode 0b0001000101000000 = .ok (.sub 1 2) ∧ decode 0b0001100101000000 = .ok (.and 1 2) ∧
    decode 0b0010000101000000 = .ok (.or 1 2) ∧ decode 0b0000011111111111 = .ok (.mov 7 7) := by decide

theorem test_decode_shifts :
    decode 0b0010110000000000 = .ok (.sl 4) ∧ decode 0b0011010000000000 = .ok (.sr 4) ∧
    decode 0b0011110000000000 = .ok (.sra 4) ∧ decode 0b0010101111111111 = .ok (.sl 3) := by decide

theorem test_decode_immediates :
    decode 0b0100010110101011 = .ok (.ldl 5 0xAB) ∧ decode 0b0100110110101011 = .ok (.ldh 5 0xAB) := by decide

theorem test_decode_compare_and_jumps :
    decode 0b0101011011100000 = .ok (.cmp 6 7) ∧ decode 0b0101100000001110 = .ok (.je 14) ∧
    decode 0b0101111111111111 = .ok (.je 0xFF) ∧ decode 0b0110011100000000 = .ok (.jmp 0) ∧
    decode 0b0110000000001000 = .ok (.jmp 8) := by decide

theorem test_decode_load_store :
    decode 0b0110100101000000 = .ok (.ld 1 64) ∧ decode 0b0111001101000000 = .ok (.st 3 64) ∧
    decode 0b0111011111111111 = .ok (.st 7 255) := by decide

theorem test_decode_halt :
    decode 0b0111100000000000 = .ok .hlt ∧ decode 0b0111100000000001 = .ok .hlt ∧
    decode 0b0111111111111111 = .ok .hlt := by decide

theorem test_decode_undefined :
    decode 0b1000000000000000 = .error (.unknownOperationCode 16) ∧
    decode 0b1000011111111111 = .error (.unknownOperationCode 16) ∧
    decode 0b1111111111111111 = .error (.unknownOperationCode 31) := by decide

/-- The worked words of R72. -/
theorem test_encode_examples :
    encode (.add 2 1) = 0x0A20 ∧ encode (.ldl 3 10) = 0x430A ∧ encode (.je 14) = 0x580E ∧ encode .hlt = 0x7800 := by
  decide

theorem test_decode_table_word :
    decodeTableWord 16 0x0A20 = some (.add 2 1) ∧ decodeTableWord 16 0x8000 = none ∧
    decodeTableWord 5 0 = some (.mov 0 0) ∧ decodeTableWord 17 0 = none := by decide

/-- Witness for the decoding clause of every instruction's statement: each operation has a word. -/
theorem test_every_selector_has_a_word :
    ∀ o ∈ Opcode.all, fieldSel (BitVec.ofNat 16 (o.selector.toNat * 2048 + 0x7FF)) = o.selector := by decide

/-- Witness for DecoderDecidesBySelectorAlone: a defined and an undefined selector. -/
theorem test_witness_selectors :
    opcodeOf (fieldSel 0x0800) = some .add ∧ fieldSel 0x0FFF = fieldSel 0x0800 ∧ opcodeOf (fieldSel 0x8000) = none := by
  decide

/-- Witness for EncodingTableByNumbers at the top of each field (1 * 2048 + 7 * 256 + 7 * 32 + 31 and
14 * 2048 + 7 * 256 + 255). -/
theorem test_witness_encoding_table :
    decode (BitVec.ofNat 16 4095) = .ok (.add 7 7) ∧ decode (BitVec.ofNat 16 30719) = .ok (.st 7 255) := by decide

/-- Witness for both clauses of WordUndefinedExactlyWithBit15, where they meet. -/
theorem test_witness_bit15 :
    (0x7FFF : Word).toNat < 32768 ∧ 32768 ≤ (0x8000 : Word).toNat := by decide

/-! ### The instructions -/

/-- R100's example and 2.2. -/
theorem test_mov : x0After (.mov 0 1) 0xFFFF 0x0001 = some 0x0001 ∧ x0After (.mov 0 0) 0x1234 0 = some 0x1234 := by decide

/-- R101, S2 and 2.2: 0xFFFF + 1 wraps, a register doubled wraps. -/
theorem test_add : x0After (.add 0 1) 0xFFFF 0x0001 = some 0 ∧ x0After (.add 0 0) 0x8000 0 = some 0 := by decide

/-- R102 and 2.2. -/
theorem test_sub : x0After (.sub 0 1) 0x0000 0x0001 = some 0xFFFF ∧ x0After (.sub 0 1) 0x1200 0x0034 = some 0x11CC := by
  decide

/-- R103. -/
theorem test_and : x0After (.and 0 1) 0x1234 0x00FF = some 0x0034 := by decide

/-- R104. -/
theorem test_or : x0After (.or 0 1) 0x1200 0x0034 = some 0x1234 := by decide

/-- 2.3. -/
theorem test_sl : x0After (.sl 0) 0x8001 0 = some 0x0002 ∧ x0After (.sl 0) 0xAAAA 0 = some 0x5554 := by decide

/-- 2.3. -/
theorem test_sr : x0After (.sr 0) 0x8001 0 = some 0x4000 ∧ x0After (.sr 0) 0xAAAA 0 = some 0x5555 := by decide

/-- S5 and 2.3. -/
theorem test_sra : x0After (.sra 0) 0x8001 0 = some 0xC000 ∧ x0After (.sra 0) 0x7FFF 0 = some 0x3FFF := by decide

/-- S6 and 2.4. -/
theorem test_ldl : x0After (.ldl 0 0xAB) 0x1234 0 = some 0x12AB ∧ x0After (.ldl 0 0x80) 0xABCD 0 = some 0xAB80 := by decide

/-- S7 and 2.4. -/
theorem test_ldh : x0After (.ldh 0 0xAB) 0x1234 0 = some 0xAB34 ∧ x0After (.ldh 0 0x80) 0xABCD 0 = some 0x80CD := by decide

/-- S8. -/
theorem test_cmp :
    (nextOf (exec (.cmp 0 1) (withRegs 5 5))).map (·.flag) = some true ∧
    (nextOf (exec (.cmp 0 1) ((withRegs 5 6).setFlag true))).map (·.flag) = some false := by decide

/-- S9: `je 14` at index 12, where the pc is 13 when it executes. -/
theorem test_je :
    (nextOf (exec (.je 14) ((State.reset.setPc 13).setFlag true))).map (fun t => (t.pc, t.flag)) = some (14, true) ∧
    (nextOf (exec (.je 14) (State.reset.setPc 13))).map (·.pc) = some 13 := by decide

/-- R122's example; a target of 128 or more is not sign-extended. -/
theorem test_jmp :
    (nextOf (exec (.jmp 8) (State.reset.setPc 14))).map (·.pc) = some 8 ∧
    (nextOf (exec (.jmp 255) (State.reset.setPc 6))).map (·.pc) = some 255 := by decide

/-- R125's example. -/
theorem test_ld :
    (nextOf (exec (.ld 1 64) (State.reset.dmemWrite 64 0x0037))).map (·.readReg 1) = some 0x0037 ∧
    (nextOf (exec (.ld 2 0) State.reset)).map (·.readReg 2) = some 0 := by decide

/-- R126's example; a zero stored over it empties the list again, so equal memories are equal data. -/
theorem test_st :
    (nextOf (exec (.st 0 64) (withRegs 0x1234 0))).map (fun t => (t.dmemRead 64, t.dmem)) =
      some (0x1234, [(128, 0x34), (129, 0x12)]) ∧
    (nextOf (exec (.st 0 64) (State.reset.dmemWrite 64 0x1234))).map (·.dmem) = some [] := by decide

/-- R130's example. -/
theorem test_hlt :
    (nextOf (step (withProgram [0x7800]))).map (fun t => (t.runState, t.faultKind, t.pc)) = some (.halted, .none, 1) := by
  decide

/-! ### The cycle (2.7) -/

theorem test_empty_program_faults :
    (nextOf (step State.reset)).map (fun t => (t.runState, t.faultKind, t.pc)) = some (.faulted, .fetch, 0) := by decide

theorem test_undefined_word_faults :
    (nextOf (step (withProgram [0x8000]))).map (fun t => (t.runState, t.faultKind, t.pc)) =
      some (.faulted, .decode, 1) := by decide

theorem test_halted_core_stays : nextOf (step State.reset.halt) = some State.reset.halt := by decide

/-- 2.6, last row: st does not change the Program Store. -/
theorem test_store_leaves_program :
    (nextOf (step ((withProgram [0x7200]).writeReg 2 1))).map (fun t => (t.prog, t.dmemRead 0)) = some ([0x7200], 1) := by
  decide

/-- A word placed where the next fetch reads runs as the first instruction after reset. -/
theorem test_with_fetch_word :
    (nextOf (step (State.reset.withFetchWord 16 0x40AB))).map (fun t => (t.readReg 0, t.pc)) = some (0x00AB, 1) ∧
    ((State.reset.setPc 3).withFetchWord 16 0x7800).prog = [0, 0, 0, 0x7800] ∧
    ((State.reset.setPc 0xFFFF).withFetchWord 16 0x7800).pc = 0 := by decide

/-! ### Witnesses: the premises of the obligations can be met -/

/-- A RUNNING core with an admitted program whose word at the pc is `ir`. -/
abbrev FetchesWord (s : State) (ir : Word) : Prop :=
  s.runState = .running ∧ ImageFits s.prog ∧ s.prog[s.pc.toNat]? = some ir

/-- LoadReturnsTheMostRecentStore: a st to another address and a mov between. -/
theorem test_witness_store_then_load :
    nextOf (exec (.st 0 64) (withRegs 0x1234 7)) = some ((withRegs 0x1234 7).dmemWrite 64 0x1234) ∧
    (∀ i ∈ [Instr.st 1 63, Instr.mov 0 1], i.storesTo ≠ some 64) ∧
    (([Instr.st 1 63, Instr.mov 0 1].foldlM
      (fun v i => match exec i v with | .next v' => some v' | _ => none)
      ((withRegs 0x1234 7).dmemWrite 64 0x1234)).map fun u : State => (u.dmemRead 64, u.readReg 0)) = some (0x1234, 7) := by decide

/-- LdReadsTheDataWord, its last clause, and OnlyStChangesTheDataStore: a st that changes the Data Store. -/
theorem test_witness_store_changes_data :
    exec (.st 0 64) (withRegs 0x1234 0) = .next ((withRegs 0x1234 0).dmemWrite 64 0x1234) ∧
    ((withRegs 0x1234 0).dmemWrite 64 0x1234).dmem ≠ (withRegs 0x1234 0).dmem ∧
    Instr.storesTo (.st 0 64) = some 64 := ⟨rfl, by decide, rfl⟩

/-- InstructionsReadAndWriteOnlyListedRegisters: a register that mov writes and does not read, and one it does
neither with. -/
theorem test_witness_register_not_read :
    Instr.reads (.mov 1 2) 1 = false ∧ Instr.writes (.mov 1 2) = some 1 ∧
    Instr.reads (.mov 1 2) 3 = false ∧ Instr.writes (.mov 1 2) ≠ some 3 := by decide

/-- FlagWrittenOnlyByCmpReadOnlyByJe: a step that changes the flag (`cmp r0, r1` on equal registers), and an
instruction that is neither je nor cmp. -/
theorem test_witness_flag_changes :
    (nextOf (step (withProgram [0x5020]))).map (·.flag) = some true ∧ (withProgram [0x5020]).flag = false ∧
    decode 0x5020 = .ok (.cmp 0 1) ∧ (∀ k, Instr.hlt ≠ .je k) ∧ (∀ c d, Instr.hlt ≠ .cmp c d) :=
  ⟨by decide, rfl, by decide, by simp, by simp⟩

/-- CmpSetsFlagToEquality: equal and unequal registers. -/
theorem test_witness_cmp_operands :
    (withRegs 5 5).readReg 0 = (withRegs 5 5).readReg 1 ∧ (withRegs 5 6).readReg 0 ≠ (withRegs 5 6).readReg 1 := by decide

/-- JeJumpsExactlyWhenFlagIsTrue: the flag true and false. -/
theorem test_witness_je_flag : (State.reset.setFlag true).flag = true ∧ State.reset.flag = false := by decide

/-- SameBut frames: their inner premises, a register other than the destination and a byte outside the word. -/
theorem test_witness_frames : (1 : RegIdx) ≠ 0 ∧ (130 : Nat) ≠ lowCell 64 ∧ (130 : Nat) ≠ highCell 64 := by decide

/-- StepRunsTheDecodedInstruction and UndefinedWordFaults: a defined word and an undefined one in range. -/
theorem test_witness_fetch_in_range :
    FetchesWord (withProgram [0x0800]) 0x0800 ∧ decode 0x0800 = .ok (.add 0 0) ∧
    FetchesWord (withProgram [0x8000]) 0x8000 ∧ decode 0x8000 = .error (.unknownOperationCode 16) ∧
    opcodeOf (fieldSel 0x8000) = none := by decide

/-- FetchPastTheEndFaults at pc = PROG_LEN, and ExactlyTwoFaultsBothUnrecoverable: a running core without a
fault; the states of its clauses are those of the three witnesses above and here. -/
theorem test_witness_fetch_at_length :
    ((withProgram [0]).setPc 1).runState = .running ∧ ((withProgram [0]).setPc 1).faultKind = .none ∧
    ImageFits ((withProgram [0]).setPc 1).prog ∧
    ((withProgram [0]).setPc 1).prog.length ≤ ((withProgram [0]).setPc 1).pc.toNat := by decide

/-- TerminalCoreNeverChanges. -/
theorem test_witness_terminal :
    State.reset.halt.runState ≠ .running ∧ (State.reset.takeFault .fetch).runState ≠ .running := by decide

/-- FallingOffTheEndFaultsUnlessHalted: a nop, a hlt, and a je that is not taken, each the last word. -/
theorem test_witness_last_word :
    FetchesWord (withProgram [0]) 0 ∧ decode 0 = .ok (.mov 0 0) ∧ (withProgram [0]).pc.toNat + 1 = (withProgram [0]).prog.length ∧
    Instr.jumpsTo (.mov 0 0) (withProgram [0]).flag = none ∧
    FetchesWord (withProgram [0x7800]) 0x7800 ∧ decode 0x7800 = .ok .hlt ∧
    Instr.jumpsTo .hlt (withProgram [0x7800]).flag = none ∧
    FetchesWord (withProgram [0x5803]) 0x5803 ∧ decode 0x5803 = .ok (.je 3) ∧
    Instr.jumpsTo (.je 3) (withProgram [0x5803]).flag = none := by decide

/-- TakenJumpFetchesNextAtItsTarget: a jmp past the end, and a taken je to a word of the program. -/
theorem test_witness_taken_jump :
    FetchesWord (withProgram [0x60FF]) 0x60FF ∧ decode 0x60FF = .ok (.jmp 255) ∧
    Instr.jumpsTo (.jmp 255) false = some 255 ∧ (withProgram [0x60FF]).prog.length ≤ (255 : Addr8).toNat ∧
    FetchesWord ((withProgram [0x5801, 0x7800]).setFlag true) 0x5801 ∧ decode 0x5801 = .ok (.je 1) ∧
    Instr.jumpsTo (.je 1) ((withProgram [0x5801, 0x7800]).setFlag true).flag = some 1 ∧
    (withProgram [0x5801, 0x7800]).prog[(1 : Addr8).toNat]? = some 0x7800 ∧ decode 0x7800 = .ok .hlt := by decide

/-- SelfJumpRunsForEver: `jmp 0` at index 0 (I3). -/
theorem test_witness_self_jump :
    FetchesWord (withProgram [0x6000]) 0x6000 ∧ decode 0x6000 = .ok (.jmp 0) ∧
    Instr.jumpsTo (.jmp 0) (withProgram [0x6000]).flag = some 0 ∧
    (0 : Addr8).toNat = (withProgram [0x6000]).pc.toNat := by decide

/-- RunResultIsReadOffTheStatus and StatusOutputCodes: one state for each clause. -/
theorem test_witness_fault_kind_agrees :
    FaultKindAgrees State.reset ∧ FaultKindAgrees State.reset.halt ∧ FaultKindAgrees (State.reset.takeFault .fetch) ∧
    FaultKindAgrees (State.reset.takeFault .decode) := by decide

/-- EveryStepKeepsTheInvariant and EveryCycleOfAnAdmittedProgramAnswers: a state of the invariant that steps. -/
theorem test_witness_invariant : Inv (withProgram [0x60FF]) ∧ (nextOf (step (withProgram [0x60FF]))).isSome :=
  ⟨⟨by decide, by decide, by decide, by decide⟩, by decide⟩

/-- InvariantHoldsAtReset, RegistersAreZeroAtReset and ProgramStoreIsReadOnly: an image that constructs. -/
theorem test_witness_construct :
    construct [0x7800] = .next (withProgram [0x7800]) ∧ ([0x7800] : List Word).length ≤ 65535 ∧
    ImageFits (withProgram [0x7800]).prog := ⟨rfl, by decide, by decide⟩

/-- OverlongProgramIsRefused: one word too many, in a running core. -/
theorem test_witness_overlong :
    65535 < (List.replicate 65536 (0 : Word)).length ∧ (withProgram (List.replicate 65536 0)).runState = .running := by
  rw [List.length_replicate]
  exact ⟨by decide, rfl⟩

/-- CanonicalDataStoreIsItsWords: a Data Store in canonical form with a word in it, and lists that are not. -/
theorem test_witness_canonical_data :
    Memory.wf [(128, 0x34), (129, 0x12)] ∧ Memory.readWord [(128, 0x34), (129, 0x12)] 64 = 0x1234 ∧
    ¬ Memory.wf [(128, 0)] ∧ ¬ Memory.wf [(129, 1), (128, 1)] ∧ ¬ Memory.wf [(512, 1)] := by decide

/-- PortEnablesAreExclusive: a terminal core, a faulting cycle, and an executing one. -/
theorem test_witness_ports :
    State.reset.halt.runState ≠ .running ∧ cycleOperation (withProgram [0x0800]) = .ok (.add 0 0) ∧
    (withProgram [0x0800]).runState = .running ∧ (cycleControl false (withProgram [0x0800])).rfWe = true := by decide

/-- R160 at the ports: a RUNNING core at a ld and at a st makes its fetch and its data access, and neither in a
cycle with rst = 1. -/
theorem test_reset_cycle_makes_no_access :
    (fetchCount false (withProgram [0x6940]), dataAccessCount false (withProgram [0x6940])) = (1, 1) ∧
    (fetchCount true (withProgram [0x6940]), dataAccessCount true (withProgram [0x6940])) = (0, 0) ∧
    dataAccessCount false (withProgram [0x7040]) = 1 ∧ dataAccessCount true (withProgram [0x7040]) = 0 := by decide

theorem test_witness_faulting_ports :
    cycleOperation State.reset = .error .fetch ∧ ImageFits State.reset.prog := ⟨rfl, by decide⟩

end Sys2Proof.Tests
end

namespace Sys2Proof.Machine

/-! ### Register writes: the frame -/

/-- A register write leaves everything but the register named as it was (R23). -/
theorem State.writeReg_sameButReg (s : State) (i : RegIdx) (v : Word) : SameButReg i s (s.writeReg i v) where
  regs _ h := s.readReg_writeReg_other i v h
  flag := s.writeReg_flag i v
  pc := s.writeReg_pc i v
  data b := by rw [s.writeReg_dmem i v]
  prog := s.writeReg_prog i v
  runState := s.writeReg_runState i v
  faultKind := s.writeReg_faultKind i v

/-! ### Construction -/

/-- Construction answers a state exactly for an admitted image: the reset state, holding that image (R94, R161). -/
theorem construct_eq_next_iff {img : List Word} {s : State} :
    construct img = .next s ↔ ImageFits img ∧ s = { State.reset with prog := img } := by
  unfold construct
  split
  · next hfits => simp [hfits, eq_comm]
  · next hlong => simp [hlong]

/-- The program a state holds has no part in what a register reads. -/
@[simp] theorem State.withProg_readReg (s : State) (img : List Word) (j : RegIdx) :
    { s with prog := img }.readReg j = s.readReg j := rfl

/-! ### The obligations on the registers -/

/-- Settles O45: a constructed state is the reset state with a program, and reset holds 0 in every register. -/
theorem registersAreZeroAtReset : Obligations.RegistersAreZeroAtReset := by
  intro j
  refine ⟨State.reset_readReg j, fun img s hs => ?_⟩
  obtain ⟨-, rfl⟩ := construct_eq_next_iff.mp hs
  rw [State.withProg_readReg, State.reset_readReg]

/-- Settles O48, by the law of reading after a write and the write's frame. -/
theorem registerFileContract : Obligations.RegisterFileContract :=
  fun s i v => ⟨s.readReg_writeReg_same i v, s.writeReg_sameButReg i v⟩

end Sys2Proof.Machine

namespace Sys2Proof.Machine

/-! ### The Data Store as 256 words -/

/-- The data indices are the numbers below 256, each of them and no other (R44). -/
theorem lt_256_iff_exists_addr8 (n : Nat) : n < 256 ↔ ∃ a : Addr8, a.toNat = n := by
  constructor
  · intro hn
    exact ⟨BitVec.ofNatLT n hn, BitVec.toNat_ofNatLT n hn⟩
  · rintro ⟨a, rfl⟩
    exact a.isLt

/-- A data write leaves every other word as it was (R44). -/
theorem State.dmemRead_dmemWrite_other (s : State) {a b : Addr8} (v : Word) (h : b ≠ a) :
    (s.dmemWrite a v).dmemRead b = s.dmemRead b := by
  rw [State.dmemRead_dmemWrite, if_neg h]

/-- Settles O49, by the range of the indices, the Data Store at reset and the laws of reading after a write. -/
theorem dataStoreWordsAreIndependent : Obligations.DataStoreWordsAreIndependent :=
  ⟨lt_256_iff_exists_addr8, State.reset_dmemRead,
    fun s a v => ⟨s.dmemRead_dmemWrite_same a v, fun _ h => s.dmemRead_dmemWrite_other v h⟩⟩

end Sys2Proof.Machine

namespace Sys2Proof

/-! ### The decoder by its selector -/

/-- A word whose selector names no operation is a decode fault that carries this selector (R67, R68). -/
theorem decode_of_undefined_selector {ir : Word} (h : opcodeOf (fieldSel ir) = none) :
    decode ir = .error (.unknownOperationCode (fieldSel ir)) := by
  simp [decode, h]

/-- OPCODE_MAP defines 16 of the 32 selectors (R66, R68). -/
theorem length_defined_selectors :
    ((List.range 32).filter fun n => (opcodeOf (BitVec.ofNat 5 n)).isSome).length = 16 := by
  decide

/-- Settles O3: a word `v` with the selector of `w` has the selector of `w`'s operation, so it decodes to that
operation with the operands of its own fields. -/
theorem decoderDecidesBySelectorAlone : Obligations.DecoderDecidesBySelectorAlone := by
  refine ⟨length_defined_selectors, fun w => ⟨fun o ho v hv => ?_, decode_of_undefined_selector⟩⟩
  have hsel : fieldSel v = o.selector := hv.trans (selector_of_opcodeOf ho).symm
  exact ⟨operands o v, decode_of_selector hsel, operands_opcode o v⟩

end Sys2Proof

namespace Sys2Proof.Machine

/-! ### Instructions that write one register -/

/-- Every word with an operation's selector decodes to the operation with the operands of the word's own fields
(R63, R67, R68). -/
theorem decodesTo_operands (o : Opcode) : DecodesTo o (operands o) := fun _ => decode_of_selector

/-- An instruction that answers a register write completes, leaves the value in that register, and changes
nothing else. -/
theorem exists_next_of_exec_eq_writeReg {i : Instr} {ra : RegIdx} {v : Word} {s : State}
    (h : exec i s = .next (s.writeReg ra v)) :
    ∃ t, exec i s = .next t ∧ t.readReg ra = v ∧ SameButReg ra s t :=
  ⟨_, h, s.readReg_writeReg_same ra v, s.writeReg_sameButReg ra v⟩

/-- The difference of two words as R102 writes it. -/
theorem sub_toNat (a b : Word) : (a - b).toNat = (a.toNat + 2 ^ 16 - b.toNat) % 2 ^ 16 := by
  rw [BitVec.toNat_sub', Nat.add_sub_assoc b.isLt.le a.toNat]

/-! ### The obligations on the register operations -/

/-- Settles O7: mov writes x[rb] to register ra. -/
theorem movCopiesRegisterB : Obligations.MovCopiesRegisterB :=
  ⟨decodesTo_operands .mov, fun ra rb s => exists_next_of_exec_eq_writeReg (exec_mov ra rb s)⟩

/-- Settles O8: add writes the sum of the two words, which wraps modulo 2^16. -/
theorem addWrapsModulo65536 : Obligations.AddWrapsModulo65536 := by
  refine ⟨decodesTo_operands .add, fun ra rb s => ?_⟩
  obtain ⟨t, hexec, hval, hframe⟩ := exists_next_of_exec_eq_writeReg (exec_add ra rb s)
  exact ⟨t, hexec, by rw [hval, BitVec.toNat_add], hframe⟩

/-- Settles O9: sub writes the difference of the two words, which wraps modulo 2^16. -/
theorem subWrapsModulo65536 : Obligations.SubWrapsModulo65536 := by
  refine ⟨decodesTo_operands .sub, fun ra rb s => ?_⟩
  obtain ⟨t, hexec, hval, hframe⟩ := exists_next_of_exec_eq_writeReg (exec_sub ra rb s)
  exact ⟨t, hexec, by rw [hval, sub_toNat], hframe⟩

/-- Settles O10: and writes the bitwise AND of the two words. -/
theorem andIsBitwise : Obligations.AndIsBitwise := by
  refine ⟨decodesTo_operands .and, fun ra rb s => ?_⟩
  obtain ⟨t, hexec, hval, hframe⟩ := exists_next_of_exec_eq_writeReg (exec_and ra rb s)
  exact ⟨t, hexec, fun n => by rw [hval, BitVec.getLsbD_and], hframe⟩

/-- Settles O11: or writes the bitwise OR of the two words. -/
theorem orIsBitwise : Obligations.OrIsBitwise := by
  refine ⟨decodesTo_operands .or, fun ra rb s => ?_⟩
  obtain ⟨t, hexec, hval, hframe⟩ := exists_next_of_exec_eq_writeReg (exec_or ra rb s)
  exact ⟨t, hexec, fun n => by rw [hval, BitVec.getLsbD_or], hframe⟩

end Sys2Proof.Machine

namespace Sys2Proof.Machine

/-! ### The shifts, bit by bit -/

/-- sl's result has 0 in bit 0 (R110). -/
theorem shiftLeft1_getLsbD_zero (v : Word) : (shiftLeft1 v).getLsbD 0 = false := by
  simp [shiftLeft1]

/-- Below bit 15, sl moves a bit up by one place (R110). -/
theorem shiftLeft1_getLsbD_succ (v : Word) {n : Nat} (h : n < 15) :
    (shiftLeft1 v).getLsbD (n + 1) = v.getLsbD n := by
  have hlt : n + 1 < 16 := by omega
  rw [shiftLeft1, BitVec.getLsbD_shiftLeft, Nat.add_sub_cancel]
  simp [hlt]

/-- sr moves each bit down by one place, where the bits past the word's end count as 0 (R111). -/
theorem shiftRight1_getLsbD (v : Word) (n : Nat) : (shiftRight1 v).getLsbD n = v.getLsbD (n + 1) := by
  rw [shiftRight1, BitVec.getLsbD_ushiftRight, Nat.add_comm]

/-- sr's result has 0 in bit 15 (R111). -/
theorem shiftRight1_getLsbD_top (v : Word) : (shiftRight1 v).getLsbD 15 = false := by
  rw [shiftRight1_getLsbD, BitVec.getLsbD_of_ge v 16 le_rfl]

/-- sra's result keeps the operand's own bit 15 (R112, R113). -/
theorem shiftRightArith1_getLsbD_top (v : Word) : (shiftRightArith1 v).getLsbD 15 = v.getLsbD 15 := by
  rw [shiftRightArith1_eq_sshiftRight, BitVec.getLsbD_sshiftRight]
  simp [BitVec.msb_eq_getLsbD_last]

/-- Below bit 15, sra moves a bit down by one place (R112). -/
theorem shiftRightArith1_getLsbD (v : Word) {n : Nat} (h : n < 15) :
    (shiftRightArith1 v).getLsbD n = v.getLsbD (n + 1) := by
  have hn : ¬ 16 ≤ n := by omega
  have hlt : 1 + n < 16 := by omega
  rw [shiftRightArith1_eq_sshiftRight, BitVec.getLsbD_sshiftRight, if_pos hlt, Nat.add_comm]
  simp [hn]

/-- As a two's-complement number, sra's result is half the operand, rounded down (R112). -/
theorem shiftRightArith1_toInt (v : Word) : (shiftRightArith1 v).toInt = v.toInt / 2 := by
  rw [shiftRightArith1_eq_sshiftRight, BitVec.toInt_sshiftRight, Int.shiftRight_eq_div_pow]
  norm_num

/-! ### The obligations on the shifts -/

/-- Settles O12: sl writes the operand's left shift by one to the operand's own register. -/
theorem slShiftsLeftByOne : Obligations.SlShiftsLeftByOne := by
  refine ⟨decodesTo_operands .sl, fun ra s => ?_⟩
  obtain ⟨t, hexec, hval, hframe⟩ := exists_next_of_exec_eq_writeReg (exec_sl ra s)
  refine ⟨t, hexec, ?_, fun n hn => ?_, ?_, hframe⟩ <;> rw [hval]
  · exact shiftLeft1_getLsbD_zero _
  · exact shiftLeft1_getLsbD_succ _ hn
  · exact shiftLeft1_toNat _

/-- Settles O13: sr writes the operand's right shift by one, 0 into bit 15, to the operand's own register. -/
theorem srShiftsRightByOne : Obligations.SrShiftsRightByOne := by
  refine ⟨decodesTo_operands .sr, fun ra s => ?_⟩
  obtain ⟨t, hexec, hval, hframe⟩ := exists_next_of_exec_eq_writeReg (exec_sr ra s)
  refine ⟨t, hexec, ?_, fun n _ => ?_, ?_, hframe⟩ <;> rw [hval]
  · exact shiftRight1_getLsbD_top _
  · exact shiftRight1_getLsbD _ n
  · exact shiftRight1_toNat _

/-- Settles O14: sra writes the operand's signed right shift by one to the operand's own register. -/
theorem sraReplicatesTheSignBit : Obligations.SraReplicatesTheSignBit := by
  refine ⟨decodesTo_operands .sra, fun ra s => ?_⟩
  obtain ⟨t, hexec, hval, hframe⟩ := exists_next_of_exec_eq_writeReg (exec_sra ra s)
  refine ⟨t, hexec, ?_, fun n hn => ?_, ?_, hframe⟩ <;> rw [hval]
  · exact shiftRightArith1_getLsbD_top _
  · exact shiftRightArith1_getLsbD _ hn
  · exact shiftRightArith1_toInt _

end Sys2Proof.Machine

namespace Sys2Proof.Machine

/-! ### The obligations on the byte loads -/

/-- Settles O15: ldl writes x[ra] with its low byte replaced, as a number and by R115's mask. -/
theorem ldlReplacesTheLowByte : Obligations.LdlReplacesTheLowByte := by
  refine ⟨decodesTo_operands .ldl, fun ra k s => ?_⟩
  obtain ⟨t, hexec, hval, hframe⟩ := exists_next_of_exec_eq_writeReg (exec_ldl ra k s)
  refine ⟨t, hexec, ?_, ?_, hframe⟩ <;> rw [hval]
  · exact withLowByte_toNat _ k
  · exact withLowByte_eq_mask _ k

/-- Settles O16: ldh writes x[ra] with its high byte replaced, as a number and by R116's mask. -/
theorem ldhReplacesTheHighByte : Obligations.LdhReplacesTheHighByte := by
  refine ⟨decodesTo_operands .ldh, fun ra k s => ?_⟩
  obtain ⟨t, hexec, hval, hframe⟩ := exists_next_of_exec_eq_writeReg (exec_ldh ra k s)
  refine ⟨t, hexec, ?_, ?_, hframe⟩ <;> rw [hval]
  · exact withHighByte_toNat _ k
  · exact withHighByte_eq_mask _ k

end Sys2Proof.Machine

namespace Sys2Proof.Machine

/-! ### The comparison flag -/

/-- A flag write leaves everything but the flag as it was (R32). -/
theorem State.setFlag_sameButFlag (s : State) (b : Bool) : SameButFlag s (s.setFlag b) where
  regs := s.setFlag_readReg b
  pc := s.setFlag_pc b
  data _ := by rw [s.setFlag_dmem b]
  prog := s.setFlag_prog b
  runState := s.setFlag_runState b
  faultKind := s.setFlag_faultKind b

/-- cmp's result is true exactly for equal words (R120). -/
theorem compareFlag_eq_true_iff {a b : Word} : compareFlag a b = true ↔ a = b := beq_iff_eq

/-- cmp's result is false exactly for different words (R120). -/
theorem compareFlag_eq_false_iff {a b : Word} : compareFlag a b = false ↔ a ≠ b := beq_eq_false_iff_ne

/-- Every instruction but cmp keeps the flag (R32, R120). -/
theorem exec_flag_of_ne_cmp {i : Instr} {s t : State} (h : exec i s = .next t)
    (hi : ∀ ra rb, i ≠ .cmp ra rb) : t.flag = s.flag := by
  cases i with
  | cmp ra rb => exact absurd rfl (hi ra rb)
  | je k =>
    rw [exec_je] at h
    cases h
    split
    · exact s.setPc_flag _
    · rfl
  | jmp k => cases h; exact s.setPc_flag _
  | st ra k => cases h; exact s.dmemWrite_flag _ _
  | hlt => cases h; exact s.halt_flag
  | _ => cases h; exact s.writeReg_flag _ _

/-! ### The obligation on cmp -/

/-- Settles O17: cmp writes the equality of the two registers to the flag, and no other instruction writes it. -/
theorem cmpSetsFlagToEquality : Obligations.CmpSetsFlagToEquality := by
  refine ⟨decodesTo_operands .cmp, fun ra rb s => ?_⟩
  refine ⟨_, exec_cmp ra rb s, ?_, ?_, s.setFlag_sameButFlag _, fun _ _ _ => exec_flag_of_ne_cmp⟩ <;>
    rw [State.setFlag_flag]
  · exact compareFlag_eq_true_iff.mpr
  · exact compareFlag_eq_false_iff.mpr

end Sys2Proof.Machine

namespace Sys2Proof.Machine

/-! ### Data writes: the frame, and the word a st leaves -/

/-- A word write leaves every byte outside the word's two cells as it was (R126). -/
theorem Memory.readByte_writeWord_other (m : Memory) {a : Addr8} (v : Word) {b : Nat}
    (hlow : b ≠ lowCell a) (hhigh : b ≠ highCell a) : (m.writeWord a v).readByte b = m.readByte b := by
  rw [Memory.readByte_writeWord, if_neg hhigh, if_neg hlow]

/-- A data write leaves everything but the two bytes of its word as it was (R126). -/
theorem State.dmemWrite_sameButData (s : State) (a : Addr8) (v : Word) : SameButData a s (s.dmemWrite a v) where
  regs := s.dmemWrite_readReg a v
  flag := s.dmemWrite_flag a v
  pc := s.dmemWrite_pc a v
  data _ hlow hhigh := s.dmem.readByte_writeWord_other v hlow hhigh
  prog := s.dmemWrite_prog a v
  runState := s.dmemWrite_runState a v
  faultKind := s.dmemWrite_faultKind a v

/-- The word at a st's address is afterwards the register it stored (R126). -/
theorem dmemRead_of_exec_st {ra : RegIdx} {k : Addr8} {s t : State} (h : exec (.st ra k) s = .next t) :
    t.dmemRead k = s.readReg ra := by
  rw [exec_st] at h
  cases h
  exact s.dmemRead_dmemWrite_same k _

/-! ### The obligations on the data accesses -/

/-- Settles O20: ld writes the data word to register ra, and right after a st to its address that word is the
stored register. -/
theorem ldReadsTheDataWord : Obligations.LdReadsTheDataWord := by
  refine ⟨decodesTo_operands .ld, State.reset_dmemRead, fun ra k s => ?_⟩
  obtain ⟨t, hexec, hval, hframe⟩ := exists_next_of_exec_eq_writeReg (exec_ld ra k s)
  exact ⟨t, hexec, hval, hframe, fun _ _ hst => hval.trans (dmemRead_of_exec_st hst)⟩

/-- Settles O21: st writes register ra to its data word, with the frame of a data write. -/
theorem stWritesOnlyItsDataWord : Obligations.StWritesOnlyItsDataWord := by
  refine ⟨decodesTo_operands .st, fun ra k s => ⟨_, exec_st ra k s, ?_⟩⟩
  rw [dataAddress_eq]
  exact ⟨s.dmemRead_dmemWrite_same k _, fun _ ha => s.dmemRead_dmemWrite_other _ ha,
    s.dmemWrite_sameButData k _⟩

end Sys2Proof.Machine

namespace Sys2Proof.Machine

/-! ### The engine state across an instruction -/

/-- Every instruction has a next state (R143). -/
theorem exists_exec_eq_next (i : Instr) (s : State) : ∃ t, exec i s = .next t := by
  cases i <;> exact ⟨_, rfl⟩

/-- No instruction writes `fault_kind` (R143). -/
theorem exec_faultKind {i : Instr} {s t : State} (h : exec i s = .next t) : t.faultKind = s.faultKind := by
  obtain ⟨ra, v, rfl⟩ | ⟨b, rfl⟩ | ⟨a, v, rfl⟩ | ⟨k, rfl⟩ | rfl | rfl := exec_cases h
  · exact s.writeReg_faultKind ra v
  · exact s.setFlag_faultKind b
  · exact s.dmemWrite_faultKind a v
  · exact s.setPc_faultKind _
  · exact s.halt_faultKind
  · rfl

/-- hlt makes the core HALTED, from any state (R86). -/
theorem exec_hlt_runState {s t : State} (h : exec .hlt s = .next t) : t.runState = .halted := by
  rw [exec_hlt] at h
  cases h
  exact s.halt_runState

/-- Every instruction but hlt keeps `run_state` (R86, R143). -/
theorem exec_runState_of_ne_hlt {i : Instr} {s t : State} (h : exec i s = .next t) (hi : i ≠ .hlt) :
    t.runState = s.runState := by
  cases i with
  | hlt => exact absurd rfl hi
  | cmp ra rb => cases h; exact s.setFlag_runState _
  | je k =>
    rw [exec_je] at h
    cases h
    split
    · exact s.setPc_runState _
    · rfl
  | jmp k => cases h; exact s.setPc_runState _
  | st ra k => cases h; exact s.dmemWrite_runState _ _
  | _ => cases h; exact s.writeReg_runState _ _

/-- No instruction makes a core FAULTED (R143). -/
theorem exec_keeps_notFaulted {i : Instr} {s t : State} (h : exec i s = .next t) (hs : NotFaulted s) :
    NotFaulted t := by
  unfold NotFaulted at *
  by_cases hi : i = .hlt
  · subst hi
    simp [exec_hlt_runState h]
  · rwa [exec_runState_of_ne_hlt h hi]

/-! ### The faults of a cycle -/

/-- A RUNNING core with an admitted program has a next state (R87). -/
theorem exists_step_eq_next {s : State} (hr : s.runState = .running) (hf : ImageFits s.prog) :
    ∃ t, step s = .next t := by
  simp only [step, cycle, hr, if_pos hf, fetchCycle]
  split
  · exact ⟨_, rfl⟩
  · unfold decodeExecute
    split
    · exact exists_exec_eq_next _ _
    · exact ⟨_, rfl⟩

/-- A step keeps the agreement of `fault_kind` and `run_state` (R34): a fault sets both, an instruction neither. -/
theorem step_keeps_faultKindAgrees {s t : State} (h : step s = .next t) (hs : FaultKindAgrees s) :
    FaultKindAgrees t := by
  obtain ⟨-, rfl⟩ | ⟨-, -, -, rfl⟩ | ⟨ir, e, -, -, -, -, rfl⟩ | ⟨ir, i, hr, -, -, -, hexec⟩ := step_cases h
  · exact hs
  · simp [FaultKindAgrees]
  · simp [FaultKindAgrees]
  · have hnone : s.faultKind = .none := by simpa [FaultKindAgrees, hr] using hs
    have hkind : t.faultKind = .none := (exec_faultKind hexec).trans hnone
    have hrun : t.runState ≠ .faulted := exec_keeps_notFaulted hexec (by simp [NotFaulted, hr])
    simp [FaultKindAgrees, hkind, hrun]

/-- A step of a core that is not RUNNING answers the same state (R81). -/
theorem step_of_ne_running {s : State} (h : s.runState ≠ .running) : step s = .next s := by
  unfold step cycle
  cases hr : s.runState with
  | running => exact absurd hr h
  | halted => rfl
  | faulted => rfl

/-- A run of one more step goes on from the step's answer. -/
theorem run_succ_of_step {s t : State} (h : step s = .next t) (n : Nat) : core.run (n + 1) s = core.run n t := by
  have hstep : core.step s = .next t := h
  simp only [Host.Core.run, hstep]

/-- Any number of steps of a core that is not RUNNING answers the same state (R81). -/
theorem run_of_ne_running {s : State} (h : s.runState ≠ .running) (n : Nat) : core.run n s = .next s := by
  induction n with
  | zero => rfl
  | succ n ih => exact (run_succ_of_step (step_of_ne_running h) n).trans ih

/-- The words with an undefined selector are those the decoder faults on (R68, R142). -/
theorem opcodeOf_fieldSel_eq_none_iff (ir : Word) : opcodeOf (fieldSel ir) = none ↔ ∃ e, decode ir = .error e := by
  obtain ⟨o, hsel, hdec⟩ | ⟨hnone, hdec⟩ := decode_cases ir
  · simp [hsel, hdec]
  · simp [hnone, hdec]

/-- A step of a RUNNING core without a fault ends with kind FETCH exactly at a pc past the program, and with kind
DECODE exactly at a word with an undefined selector (R140 to R142). -/
theorem step_faultKind_iff {s t : State} (h : step s = .next t) (hr : s.runState = .running)
    (hk : s.faultKind = .none) :
    (t.faultKind = .fetch ↔ s.progLen ≤ s.pc.toNat) ∧
      (t.faultKind = .decode ↔ ∃ ir, s.progRead s.pc = some ir ∧ opcodeOf (fieldSel ir) = none) := by
  obtain ⟨hne, -⟩ | ⟨-, -, hlen, rfl⟩ | ⟨ir, e, -, -, hread, hdec, rfl⟩ | ⟨ir, i, -, -, hread, hdec, hexec⟩ :=
    step_cases h
  · exact absurd hr hne
  · have hread : s.progRead s.pc = none := List.getElem?_eq_none hlen
    simp [hlen, hread]
  · have hlt := State.lt_of_progRead hread
    simp [hlt, hread, hdec, opcodeOf_fieldSel_eq_none_iff]
  · have hlt := State.lt_of_progRead hread
    have hkind : t.faultKind = .none := (exec_faultKind hexec).trans hk
    simp [hlt, hread, hdec, hkind, opcodeOf_fieldSel_eq_none_iff]

/-! ### The obligations on the exceptions -/

/-- Settles O30: no instruction writes `fault_kind`, and only hlt writes `run_state`. -/
theorem noOperationFaultsOnceDecoded : Obligations.NoOperationFaultsOnceDecoded := by
  intro i s
  obtain ⟨t, hexec⟩ := exists_exec_eq_next i s
  refine ⟨t, hexec, exec_faultKind hexec, ?_, exec_runState_of_ne_hlt hexec⟩
  rintro rfl
  exact exec_hlt_runState hexec

/-- Settles O35: the kind tells the cause, the status agrees with the kind, and a FAULTED core no longer changes. -/
theorem exactlyTwoFaultsBothUnrecoverable : Obligations.ExactlyTwoFaultsBothUnrecoverable := by
  intro s hr hk hf
  obtain ⟨t, hstep⟩ := exists_step_eq_next hr hf
  obtain ⟨hfetch, hdecode⟩ := step_faultKind_iff hstep hr hk
  have hagrees : FaultKindAgrees t := step_keeps_faultKindAgrees hstep (by simp [FaultKindAgrees, hr, hk])
  refine ⟨t, hstep, hfetch, hdecode, hagrees.symm, fun hfaulted n => ?_⟩
  exact ⟨t, run_of_ne_running (by simp [hfaulted]) n, hfaulted, rfl⟩

end Sys2Proof.Machine

namespace Sys2Proof

/-! ### The decoder inverts the encoder -/

/-- The encoder puts the instruction's own selector in its word (R72). -/
@[simp] theorem fieldSel_encode (i : Instr) : fieldSel (encode i) = i.opcode.selector := by
  cases i <;> simp [encode, Instr.opcode]

/-- The fields of an instruction's word are its operands (R72). -/
theorem operands_encode (i : Instr) : operands i.opcode (encode i) = i := by
  cases i <;> simp [encode, Instr.opcode, operands]

/-- Settles O1: the word of `i` carries `i`'s selector, and its fields are `i`'s operands. -/
theorem decodeOfEncodeReturnsInstr : Obligations.DecodeOfEncodeReturnsInstr := by
  intro i
  rw [decode_of_selector (fieldSel_encode i), operands_encode]

/-! ### The encoder on a decoded word: each field put back in its place -/

/-- A word's selector put back in its place is the word under the selector's mask (R61). -/
theorem encSel_of_fieldSel {w : Word} {o : Opcode} (h : fieldSel w = o.selector) : encSel o = w &&& 0xF800 := by
  rw [encSel, ← h]
  ext i hi
  interval_cases i <;> simp [fieldSel]

/-- A word's field ra put back in its place is the word under the field's mask (R61). -/
theorem encRa_fieldRa (w : Word) : encRa (fieldRa w) = w &&& 0x0700 := by
  ext i hi
  interval_cases i <;> simp [encRa, fieldRa]

/-- A word's field rb put back in its place is the word under the field's mask (R61). -/
theorem encRb_fieldRb (w : Word) : encRb (fieldRb w) = w &&& 0x00E0 := by
  ext i hi
  interval_cases i <;> simp [encRb, fieldRb]

/-- A word's 8-bit field put back in its place is the word under the field's mask (R61). -/
theorem setWidth_fieldImm8 (w : Word) : (fieldImm8 w).setWidth 16 = w &&& 0x00FF := by
  ext i hi
  interval_cases i <;> simp [fieldImm8]

/-- Two parts of one word put together are the word under both masks. -/
theorem and_or_and (w m n : Word) : w &&& m ||| w &&& n = w &&& (m ||| n) := by
  ext i hi
  simp [Bool.and_or_distrib_left]

/-- Encoding the operands of a word with `o`'s selector keeps the bits that `o`'s shape uses, and no other (R74). -/
theorem encode_operands {w : Word} {o : Opcode} (h : fieldSel w = o.selector) :
    encode (operands o w) = w &&& o.shape.keepMask := by
  have hsel := encSel_of_fieldSel h
  cases o <;> simp only [operands, encode, Opcode.shape, Shape.keepMask, hsel, encRa_fieldRa, encRb_fieldRb,
    setWidth_fieldImm8, and_or_and] <;> rfl

/-- Settles O2: the masked word is the word the encoder gives, which decodes to the instruction it encodes. -/
theorem encodeOfDecodeClearsIgnoredBits : Obligations.EncodeOfDecodeClearsIgnoredBits := by
  intro w i hdec
  obtain ⟨o, hsel, hok⟩ | ⟨-, herr⟩ := decode_cases w
  · obtain rfl : operands o w = i := by simpa [hok] using hdec
    have hmask : encode (operands o w) = w &&& (operands o w).opcode.shape.keepMask := by
      rw [operands_opcode, encode_operands hsel]
    exact ⟨hmask, hmask ▸ decodeOfEncodeReturnsInstr _⟩
  · simp [herr] at hdec

end Sys2Proof

namespace Sys2Proof.Machine

/-! ### The opcode table as arithmetic -/

/-- A field of a word given by its number is the number divided by the weight of the field's lowest bit (R61). -/
theorem extractLsb'_ofNat {start len : Nat} (h : start + len ≤ 16) (n : Nat) :
    (BitVec.ofNat 16 n).extractLsb' start len = BitVec.ofNat len (n / 2 ^ start) := by
  apply BitVec.eq_of_getLsbD_eq
  intro i hi
  have hbit : start + i < 16 := by omega
  simp only [BitVec.getLsbD_extractLsb', BitVec.getLsbD_ofNat, hi, hbit, decide_true, Bool.true_and,
    Nat.testBit_div_two_pow, Nat.add_comm]

theorem fieldSel_ofNat (n : Nat) : fieldSel (BitVec.ofNat 16 n) = BitVec.ofNat 5 (n / 2048) :=
  extractLsb'_ofNat (by decide) n

theorem fieldRa_ofNat (n : Nat) : fieldRa (BitVec.ofNat 16 n) = BitVec.ofNat 3 (n / 256) :=
  extractLsb'_ofNat (by decide) n

theorem fieldRb_ofNat (n : Nat) : fieldRb (BitVec.ofNat 16 n) = BitVec.ofNat 3 (n / 32) :=
  extractLsb'_ofNat (by decide) n

theorem fieldImm8_ofNat (n : Nat) : fieldImm8 (BitVec.ofNat 16 n) = BitVec.ofNat 8 n := by
  rw [fieldImm8, extractLsb'_ofNat (by decide), Nat.pow_zero, Nat.div_one]

/-- A word of an operation, given by its number, decodes to the operation with the operands of its fields. -/
theorem DecodesTo.decode_ofNat {o : Opcode} {mk : Word → Instr} (h : DecodesTo o mk) {n : Nat}
    (hn : n / 2048 = o.selector.toNat) : decode (BitVec.ofNat 16 n) = .ok (mk (BitVec.ofNat 16 n)) :=
  h _ (by rw [fieldSel_ofNat, hn, BitVec.ofNat_toNat, BitVec.setWidth_eq])

/-- An operation with the operands ra and rb is the word selector * 2048 + ra * 256 + rb * 32 + ignored bits. -/
theorem DecodesRR.decode_ofNat {o : Opcode} {mk : RegIdx → RegIdx → Instr} (h : DecodesRR o mk)
    {sel ra rb low : Nat} (hsel : o.selector.toNat = sel) (hra : ra < 8) (hrb : rb < 8) (hlow : low < 32) :
    decode (BitVec.ofNat 16 (sel * 2048 + ra * 256 + rb * 32 + low)) =
      .ok (mk (BitVec.ofNat 3 ra) (BitVec.ofNat 3 rb)) := by
  rw [DecodesTo.decode_ofNat h (by omega), fieldRa_ofNat, fieldRb_ofNat]
  congr 2 <;> exact BitVec.eq_of_toNat_eq (by simp only [BitVec.toNat_ofNat]; omega)

/-- An operation with the operands ra and the 8-bit field is the word selector * 2048 + ra * 256 + field. -/
theorem DecodesRK.decode_ofNat {o : Opcode} {mk : RegIdx → BitVec 8 → Instr} (h : DecodesRK o mk)
    {sel ra k : Nat} (hsel : o.selector.toNat = sel) (hra : ra < 8) (hk : k < 256) :
    decode (BitVec.ofNat 16 (sel * 2048 + ra * 256 + k)) =
      .ok (mk (BitVec.ofNat 3 ra) (BitVec.ofNat 8 k)) := by
  rw [DecodesTo.decode_ofNat h (by omega), fieldRa_ofNat, fieldImm8_ofNat]
  congr 2 <;> exact BitVec.eq_of_toNat_eq (by simp only [BitVec.toNat_ofNat]; omega)

/-- Settles O4: the operations of shapes R, A and N ignore one or both of the operands of shape RI. -/
theorem encodingTableByNumbers : Obligations.EncodingTableByNumbers := by
  refine ⟨fun ra rb low hra hrb hlow => ?_, fun ra k hra hk => ?_⟩
  · have table {o mk sel} (h : DecodesRR o mk) (hsel : o.selector.toNat = sel) := h.decode_ofNat hsel hra hrb hlow
    exact ⟨table (decodesTo_operands .mov) rfl, table (decodesTo_operands .add) rfl,
      table (decodesTo_operands .sub) rfl, table (decodesTo_operands .and) rfl,
      table (decodesTo_operands .or) rfl, table (decodesTo_operands .cmp) rfl⟩
  · have table {o mk sel} (h : DecodesRK o mk) (hsel : o.selector.toNat = sel) := h.decode_ofNat hsel hra hk
    exact ⟨table (mk := fun ra _ => .sl ra) (decodesTo_operands .sl) rfl,
      table (mk := fun ra _ => .sr ra) (decodesTo_operands .sr) rfl,
      table (mk := fun ra _ => .sra ra) (decodesTo_operands .sra) rfl,
      table (decodesTo_operands .ldl) rfl, table (decodesTo_operands .ldh) rfl,
      table (mk := fun _ k => .je k) (decodesTo_operands .je) rfl,
      table (mk := fun _ k => .jmp k) (decodesTo_operands .jmp) rfl,
      table (decodesTo_operands .ld) rfl, table (decodesTo_operands .st) rfl,
      table (mk := fun _ _ => .hlt) (decodesTo_operands .hlt) rfl⟩

/-! ### The undefined words -/

/-- The undefined selectors are 16 to 31 (R66). -/
theorem opcodeOf_eq_none_iff (sel : Selector) : opcodeOf sel = none ↔ 16 ≤ sel.toNat := by
  revert sel
  decide

/-- A word's selector is the word divided by 2048 (R61). -/
theorem fieldSel_eq_ofNat (w : Word) : fieldSel w = BitVec.ofNat 5 (w.toNat / 2048) := by
  rw [← fieldSel_ofNat, BitVec.ofNat_toNat, BitVec.setWidth_eq]

theorem fieldSel_toNat (w : Word) : (fieldSel w).toNat = w.toNat / 2048 := by
  have hw : w.toNat < 65536 := w.isLt
  rw [fieldSel_eq_ofNat, BitVec.toNat_ofNat]
  omega

/-- Settles O5: bit 15 is the top bit of the selector, and the undefined selectors are those from 16 on. -/
theorem wordUndefinedExactlyWithBit15 : Obligations.WordUndefinedExactlyWithBit15 := by
  intro w
  have hundef : opcodeOf (fieldSel w) = none ↔ 32768 ≤ w.toNat := by
    rw [opcodeOf_eq_none_iff, fieldSel_toNat]
    omega
  constructor
  · intro hlt
    obtain ⟨o, -, hdec⟩ | ⟨hnone, -⟩ := decode_cases w
    · exact ⟨_, hdec⟩
    · exact absurd (hundef.mp hnone) (by omega)
  · intro hge
    rw [decode_of_undefined_selector (hundef.mpr hge), fieldSel_eq_ofNat]

/-- Settles O6, by running the decoder on the words. -/
theorem sampleWordsDecodeAsTheSpecReadsThem : Obligations.SampleWordsDecodeAsTheSpecReadsThem := by
  unfold Obligations.SampleWordsDecodeAsTheSpecReadsThem
  decide

end Sys2Proof.Machine

namespace Sys2Proof.Machine

/-! ### What every instruction and every step keeps -/

/-- No instruction writes the Program Store (R41). -/
theorem exec_prog {i : Instr} {s t : State} (h : exec i s = .next t) : t.prog = s.prog := by
  obtain ⟨ra, v, rfl⟩ | ⟨b, rfl⟩ | ⟨a, v, rfl⟩ | ⟨k, rfl⟩ | rfl | rfl := exec_cases h
  · exact s.writeReg_prog ra v
  · exact s.setFlag_prog b
  · exact s.dmemWrite_prog a v
  · exact s.setPc_prog _
  · exact s.halt_prog
  · rfl

/-- Every instruction keeps the Data Store in canonical form (R45). -/
theorem exec_keeps_dmem_wf {i : Instr} {s t : State} (h : exec i s = .next t) (hs : s.dmem.wf) : t.dmem.wf := by
  obtain ⟨ra, v, rfl⟩ | ⟨b, rfl⟩ | ⟨a, v, rfl⟩ | ⟨k, rfl⟩ | rfl | rfl := exec_cases h
  case inr.inr.inl => exact Memory.writeWord_wf hs a v
  all_goals exact hs

/-- An instruction leaves the pc as it is, or sets it to an 8-bit address (R28). -/
theorem exec_pc_eq_or_le {i : Instr} {s t : State} (h : exec i s = .next t) :
    t.pc = s.pc ∨ t.pc.toNat ≤ 255 := by
  obtain ⟨ra, v, rfl⟩ | ⟨b, rfl⟩ | ⟨a, v, rfl⟩ | ⟨k, rfl⟩ | rfl | rfl := exec_cases h
  case inr.inr.inr.inl =>
    have hk : k.toNat < 256 := k.isLt
    right
    rw [State.setPc_pc, jumpTarget_toNat]
    omega
  all_goals exact .inl rfl

/-- No step writes the Program Store (R41). -/
theorem step_prog {s t : State} (h : step s = .next t) : t.prog = s.prog := by
  obtain ⟨-, rfl⟩ | ⟨-, -, -, rfl⟩ | ⟨_, _, -, -, -, -, rfl⟩ | ⟨_, _, -, -, -, -, hexec⟩ := step_cases h
  · rfl
  · exact s.takeFault_prog _
  · exact s.advancePc_prog
  · exact (exec_prog hexec).trans s.advancePc_prog

/-- Every step keeps the Data Store in canonical form. -/
theorem step_keeps_dmem_wf {s t : State} (h : step s = .next t) (hs : s.dmem.wf) : t.dmem.wf := by
  obtain ⟨-, rfl⟩ | ⟨-, -, -, rfl⟩ | ⟨_, _, -, -, -, -, rfl⟩ | ⟨_, _, -, -, -, -, hexec⟩ := step_cases h
  case inr.inr.inr => exact exec_keeps_dmem_wf hexec hs
  all_goals exact hs

/-- A fetched word's index + 1 is at most PROG_LEN, so a pc a run can reach leads to such a pc (R27, R30). -/
theorem step_keeps_pcReachable {s t : State} (h : step s = .next t) (hs : PcReachable s) : PcReachable t := by
  have hlen : t.progLen = s.progLen := congrArg List.length (step_prog h)
  have advance {ir} (hf : ImageFits s.prog) (hread : s.progRead s.pc = some ir) :
      s.advancePc.pc.toNat ≤ s.progLen := by
    rw [State.advancePc_toNat hf hread]
    exact State.lt_of_progRead hread
  unfold PcReachable at *
  rw [hlen]
  obtain ⟨-, rfl⟩ | ⟨-, -, -, rfl⟩ | ⟨_, _, -, hf, hread, -, rfl⟩ | ⟨_, _, -, hf, hread, -, hexec⟩ := step_cases h
  · exact hs
  · exact hs
  · exact (advance hf hread).trans (le_max_left _ _)
  · obtain hpc | hpc := exec_pc_eq_or_le hexec
    · rw [hpc]
      exact (advance hf hread).trans (le_max_left _ _)
    · exact hpc.trans (le_max_right _ _)

/-- Settles O42: each part of the invariant is kept. -/
theorem everyStepKeepsTheInvariant : Obligations.EveryStepKeepsTheInvariant := by
  intro s t hs h
  exact {
    programFits := step_prog h ▸ hs.programFits
    dataStoreCanonical := step_keeps_dmem_wf h hs.dataStoreCanonical
    faultKindAgrees := step_keeps_faultKindAgrees h hs.faultKindAgrees
    pcReachable := step_keeps_pcReachable h hs.pcReachable }

/-! ### The invariant at reset and along a run -/

/-- The reset state with an admitted program meets the invariant (R161). -/
theorem inv_reset_withProg {img : List Word} (hfits : ImageFits img) : Inv { State.reset with prog := img } where
  programFits := hfits
  dataStoreCanonical := State.reset_dmem_wf
  faultKindAgrees := by simp [FaultKindAgrees, State.reset]
  pcReachable := Nat.zero_le _

/-- Settles O43: every one of the states is the reset state with an admitted program. -/
theorem invariantHoldsAtReset : Obligations.InvariantHoldsAtReset := by
  refine ⟨inv_reset_withProg (img := []) (Nat.zero_le _), fun img s h => ?_,
    fun s hfits => inv_reset_withProg hfits⟩
  obtain ⟨hfits, rfl⟩ := construct_eq_next_iff.mp h
  exact inv_reset_withProg hfits

/-- A core with an admitted program has a next state, RUNNING or not (R81, R87). -/
theorem exists_step_eq_next_of_fits {s : State} (hf : ImageFits s.prog) : ∃ t, step s = .next t := by
  by_cases hr : s.runState = .running
  · exact exists_step_eq_next hr hf
  · exact ⟨s, step_of_ne_running hr⟩

/-- Settles O44, by induction on the number of steps. -/
theorem everyCycleOfAnAdmittedProgramAnswers : Obligations.EveryCycleOfAnAdmittedProgramAnswers := by
  intro s n hs
  induction n generalizing s with
  | zero => exact ⟨s, rfl, hs⟩
  | succ n ih =>
    obtain ⟨t, hstep⟩ := exists_step_eq_next_of_fits hs.programFits
    rw [run_succ_of_step hstep]
    exact ih t (everyStepKeepsTheInvariant s t hs hstep)

/-- Settles O36: a step of such a core answers the same state, and so does a run of steps. -/
theorem terminalCoreNeverChanges : Obligations.TerminalCoreNeverChanges := fun _ n h => run_of_ne_running h n

/-! ### The Program Store -/

/-- No instruction reads the Program Store: with another program in the state it does the same (R41). -/
theorem exec_withProg {i : Instr} {s t : State} (h : exec i s = .next t) (p : List Word) :
    exec i { s with prog := p } = .next { t with prog := p } := by
  cases i with
  | je k =>
    rw [exec_je] at h ⊢
    cases h
    split <;> rfl
  | _ => cases h; rfl

/-- Settles O31: construction stores the image, and neither a step nor an instruction writes it or reads it as data. -/
theorem programStoreIsReadOnly : Obligations.ProgramStoreIsReadOnly := by
  refine ⟨fun img hfits => ⟨_, construct_eq_next_iff.mpr ⟨hfits, rfl⟩, rfl⟩, fun _ _ => step_prog, fun i s p => ?_⟩
  obtain ⟨t, hexec⟩ := exists_exec_eq_next i s
  exact ⟨t, hexec, exec_withProg hexec p⟩

/-- Settles O47: construction and the step both check the image's length. -/
theorem overlongProgramIsRefused : Obligations.OverlongProgramIsRefused := by
  have too_long {img : List Word} (h : 65535 < img.length) : ¬ ImageFits img := Nat.not_le.mpr h
  refine ⟨fun img h => if_neg (too_long h), fun s hr h => ?_⟩
  simp only [step, cycle, hr, if_neg (too_long h)]

end Sys2Proof.Machine

namespace Sys2Proof.Machine

/-! ### The comparison flag over all instructions -/

/-- cmp overwrites the flag without reading it (R32). -/
theorem exec_cmp_setFlag (ra rb : RegIdx) (s : State) (b : Bool) :
    exec (.cmp ra rb) (s.setFlag b) = exec (.cmp ra rb) s := rfl

/-- An instruction other than je and cmp does the same with another flag, which it keeps (R32). -/
theorem exec_setFlag {i : Instr} (hje : ∀ k, i ≠ .je k) (hcmp : ∀ ra rb, i ≠ .cmp ra rb) {s t : State}
    (h : exec i s = .next t) (b : Bool) : exec i (s.setFlag b) = .next (t.setFlag b) := by
  cases i with
  | je k => exact absurd rfl (hje k)
  | cmp ra rb => exact absurd rfl (hcmp ra rb)
  | _ => cases h; rfl

/-- A step that changes the flag executes a cmp (R32). -/
theorem exists_cmp_of_step_flag_ne {s t : State} (h : step s = .next t) (hne : t.flag ≠ s.flag) :
    ∃ ir ra rb, s.progRead s.pc = some ir ∧ decode ir = .ok (.cmp ra rb) := by
  obtain ⟨-, rfl⟩ | ⟨-, -, -, rfl⟩ | ⟨_, _, -, -, -, -, rfl⟩ | ⟨ir, i, -, -, hread, hdec, hexec⟩ := step_cases h
  case inr.inr.inr =>
    by_contra hno
    have hcmp : ∀ ra rb, i ≠ .cmp ra rb := fun ra rb hi => hno ⟨ir, ra, rb, hread, hi ▸ hdec⟩
    exact hne ((exec_flag_of_ne_cmp hexec hcmp).trans s.advancePc_flag)
  all_goals exact absurd rfl hne

/-- Settles O27, by what each instruction does to the flag and does with another one. -/
theorem flagWrittenOnlyByCmpReadOnlyByJe : Obligations.FlagWrittenOnlyByCmpReadOnlyByJe := by
  refine ⟨fun _ _ => exists_cmp_of_step_flag_ne, exec_cmp_setFlag, fun i s b hje hcmp => ?_⟩
  obtain ⟨t, hexec⟩ := exists_exec_eq_next i s
  exact ⟨t, hexec, exec_setFlag hje hcmp hexec b⟩

end Sys2Proof.Machine

namespace Sys2Proof.Machine

/-! ### The registers an instruction writes and reads -/

/-- Of two register writes, the second overwrites the first or commutes with it (R23). -/
theorem State.writeReg_writeReg (s : State) (i j : RegIdx) (v w : Word) :
    (s.writeReg i v).writeReg j w = if j = i then s.writeReg j w else (s.writeReg j w).writeReg i v := by
  split
  · next h => rw [h, State.writeReg_writeReg_same]
  · next h => rw [State.writeReg_writeReg_comm s v w (Ne.symm h)]

/-- An instruction with a destination writes a value to it in which a register it does not read has no part (R22). -/
theorem exists_value_of_writes {i : Instr} {ra : RegIdx} (hw : i.writes = some ra) :
    ∃ value : State → Word, (∀ s, exec i s = .next (s.writeReg ra (value s))) ∧
      ∀ s r v, i.reads r = false → value (s.writeReg r v) = value s := by
  cases i <;> simp only [Instr.writes, reduceCtorEq, Option.some.injEq] at hw <;> subst hw <;>
    refine ⟨_, fun _ => rfl, fun s r v hr => ?_⟩
  all_goals
    simp only [Instr.reads, Bool.or_eq_false_iff, beq_eq_false_iff_ne, ne_eq, @eq_comm _ r] at hr
    simp [State.readReg_writeReg, hr]

/-- An instruction without a destination keeps every register (R22). -/
theorem exec_readReg_of_writes_none {i : Instr} (hw : i.writes = none) {s t : State} (h : exec i s = .next t)
    (j : RegIdx) : t.readReg j = s.readReg j := by
  cases i with
  | cmp ra rb => cases h; exact s.setFlag_readReg _ j
  | je k =>
    rw [exec_je] at h
    cases h
    split
    · exact s.setPc_readReg _ j
    · rfl
  | jmp k => cases h; exact s.setPc_readReg _ j
  | st ra k => cases h; exact s.dmemWrite_readReg _ _ j
  | hlt => cases h; exact s.halt_readReg j
  | _ => cases hw

/-- A register that an instruction without a destination does not read has no influence on it (R22). -/
theorem exec_writeReg_of_writes_none {i : Instr} (hw : i.writes = none) {s t : State} (h : exec i s = .next t)
    {r : RegIdx} (hr : i.reads r = false) (v : Word) : exec i (s.writeReg r v) = .next (t.writeReg r v) := by
  cases i with
  | cmp ra rb =>
    simp only [Instr.reads, Bool.or_eq_false_iff, beq_eq_false_iff_ne, ne_eq] at hr
    rw [exec_cmp, s.readReg_writeReg_other r v (Ne.symm hr.1), s.readReg_writeReg_other r v (Ne.symm hr.2)]
    cases h
    rfl
  | st ra k =>
    simp only [Instr.reads, beq_eq_false_iff_ne, ne_eq] at hr
    rw [exec_st, s.readReg_writeReg_other r v (Ne.symm hr)]
    cases h
    rfl
  | je k =>
    rw [exec_je] at h ⊢
    rw [State.writeReg_flag]
    cases h
    split <;> rfl
  | jmp k => cases h; rfl
  | hlt => cases h; rfl
  | _ => cases hw

/-- Settles O26, for instructions with a destination and without one. -/
theorem instructionsReadAndWriteOnlyListedRegisters :
    Obligations.InstructionsReadAndWriteOnlyListedRegisters := by
  intro i s
  cases hw : i.writes with
  | none =>
    obtain ⟨t, hexec⟩ := exists_exec_eq_next i s
    refine ⟨t, hexec, fun j _ => exec_readReg_of_writes_none hw hexec j, fun r v hr => ?_⟩
    rw [if_neg (by simp), exec_writeReg_of_writes_none hw hexec hr v]
  | some ra =>
    obtain ⟨value, hexec, hindep⟩ := exists_value_of_writes hw
    refine ⟨_, hexec s, fun j hj => s.readReg_writeReg_other ra _ fun h => hj (congrArg some h.symm),
      fun r v hr => ?_⟩
    rw [hexec, hindep s r v hr, State.writeReg_writeReg]
    simp only [Option.some.injEq]


end Sys2Proof.Machine

namespace Sys2Proof.Machine

/-! ### The Data Store over all instructions -/

/-- An instruction that stores nothing keeps the Data Store (R46). -/
theorem exec_dmem_of_storesTo_none {i : Instr} (hi : i.storesTo = none) {s t : State} (h : exec i s = .next t) :
    t.dmem = s.dmem := by
  cases i with
  | cmp ra rb => cases h; exact s.setFlag_dmem _
  | je k =>
    rw [exec_je] at h
    cases h
    split
    · exact s.setPc_dmem _
    · rfl
  | jmp k => cases h; exact s.setPc_dmem _
  | st ra k => cases hi
  | hlt => cases h; exact s.halt_dmem
  | _ => cases h; exact s.writeReg_dmem _ _

/-- The one instruction that stores is st, to its own address (R126). -/
theorem eq_st_of_storesTo {i : Instr} {a : Addr8} (hi : i.storesTo = some a) : ∃ ra, i = .st ra a := by
  cases i <;> cases hi
  exact ⟨_, rfl⟩

/-- Settles O28: what stores nothing keeps the whole Data Store, and st has the frame of a data write. -/
theorem onlyStChangesTheDataStore : Obligations.OnlyStChangesTheDataStore := by
  intro i s t h
  cases hi : i.storesTo with
  | none =>
    have hdmem := exec_dmem_of_storesTo_none hi h
    exact ⟨fun b _ => by rw [hdmem], fun hne => absurd hdmem hne⟩
  | some a =>
    obtain ⟨ra, rfl⟩ := eq_st_of_storesTo hi
    cases h
    refine ⟨fun b hb => ?_, fun _ => ⟨ra, a, rfl⟩⟩
    obtain ⟨hlow, hhigh⟩ := hb a rfl
    exact (s.dmemWrite_sameButData a _).data b hlow hhigh

/-- An instruction that does not store to a word keeps it (R126). -/
theorem exec_dmemRead_of_storesTo_ne {i : Instr} {a : Addr8} (hi : i.storesTo ≠ some a) {s t : State}
    (h : exec i s = .next t) : t.dmemRead a = s.dmemRead a := by
  cases hst : i.storesTo with
  | none => exact congrArg (·.readWord a) (exec_dmem_of_storesTo_none hst h)
  | some b =>
    obtain ⟨ra, rfl⟩ := eq_st_of_storesTo hst
    cases h
    exact s.dmemRead_dmemWrite_other _ fun hab => hi (hst.trans (congrArg some hab.symm))

/-- A property that every step of a run keeps holds at its end. -/
theorem foldlM_keeps {σ ι : Type} {f : σ → ι → Option σ} {P : σ → Prop} {l : List ι}
    (hf : ∀ v, ∀ i ∈ l, ∀ v', f v i = some v' → P v → P v') {s u : σ} (h : l.foldlM f s = some u)
    (hs : P s) : P u := by
  induction l generalizing s with
  | nil =>
    cases h
    exact hs
  | cons i l ih =>
    rw [List.foldlM_cons, Option.bind_eq_bind, Option.bind_eq_some_iff] at h
    obtain ⟨v, hv, hrest⟩ := h
    exact ih (fun w j hj => hf w j (List.mem_cons_of_mem i hj)) hrest (hf s i List.mem_cons_self v hv hs)

/-- Settles O25: no instruction between the st and the ld writes the word. -/
theorem loadReturnsTheMostRecentStore : Obligations.LoadReturnsTheMostRecentStore := by
  intro between ra rb a s t u hst hno hrun
  have hkeep : u.dmemRead a = s.readReg ra := by
    refine foldlM_keeps (P := fun v => v.dmemRead a = s.readReg ra) ?_ hrun (dmemRead_of_exec_st hst)
    intro v i hi v' hv' hv
    split at hv'
    · next hexec =>
      cases hv'
      exact (exec_dmemRead_of_storesTo_ne (hno i hi) hexec).trans hv
    · cases hv'
  exact ⟨_, exec_ld rb a u, (u.readReg_writeReg_same rb _).trans hkeep⟩

end Sys2Proof.Machine

namespace Sys2Proof.Machine

/-! ### The pc over all instructions -/

/-- An instruction that takes no jump keeps the pc (R28). -/
theorem exec_pc_of_jumpsTo_none {i : Instr} {s t : State} (hi : i.jumpsTo s.flag = none) (h : exec i s = .next t) :
    t.pc = s.pc := by
  cases i with
  | cmp ra rb => cases h; exact s.setFlag_pc _
  | je k =>
    rw [exec_je] at h
    cases h
    split
    · next hf => simp [Instr.jumpsTo, hf] at hi
    · rfl
  | jmp k => cases hi
  | st ra k => cases h; exact s.dmemWrite_pc _ _
  | hlt => cases h; exact s.halt_pc
  | _ => cases h; exact s.writeReg_pc _ _

/-- A taken jump sets the pc to its target and does nothing else (R121, R122). -/
theorem exec_of_jumpsTo {i : Instr} {s : State} {k : Addr8} (hi : i.jumpsTo s.flag = some k) :
    exec i s = .next (s.setPc (jumpTarget k)) := by
  cases i with
  | je a =>
    simp only [Instr.jumpsTo, Option.ite_none_right_eq_some, Option.some.injEq] at hi
    obtain ⟨hf, rfl⟩ := hi
    rw [exec_je, if_pos hf]
  | jmp a => cases hi; rfl
  | _ => cases hi

/-- Settles O29, for an instruction that takes no jump and for a taken jump. -/
theorem pcIsSequentialButForTakenJumps : Obligations.PcIsSequentialButForTakenJumps := by
  intro i s
  cases hi : i.jumpsTo s.flag with
  | none =>
    obtain ⟨t, hexec⟩ := exists_exec_eq_next i s
    exact ⟨t, hexec, exec_pc_of_jumpsTo_none hi hexec⟩
  | some k => exact ⟨_, exec_of_jumpsTo hi, jumpTarget_toNat k⟩

/-- A pc write leaves everything but the pc as it was (R28). -/
theorem State.setPc_sameButPc (s : State) (v : Word) : SameButPc s (s.setPc v) where
  regs := s.setPc_readReg v
  flag := s.setPc_flag v
  data _ := by rw [s.setPc_dmem v]
  prog := s.setPc_prog v
  runState := s.setPc_runState v
  faultKind := s.setPc_faultKind v

theorem SameButPc.refl (s : State) : SameButPc s s := ⟨fun _ => rfl, rfl, fun _ => rfl, rfl, rfl, rfl⟩

/-- Settles O18, for the je that is taken and the one that is not. -/
theorem jeJumpsExactlyWhenFlagIsTrue : Obligations.JeJumpsExactlyWhenFlagIsTrue := by
  refine ⟨decodesTo_operands .je, fun k s => ⟨_, exec_je k s, ?_⟩⟩
  cases hf : s.flag with
  | true => exact ⟨fun _ => jumpTarget_toNat k, fun h => (by cases h), s.setPc_sameButPc _⟩
  | false => exact ⟨fun h => (by cases h), fun _ => rfl, SameButPc.refl s⟩

/-- Settles O19: jmp is a pc write. -/
theorem jmpSetsPcToTheAddress : Obligations.JmpSetsPcToTheAddress :=
  ⟨decodesTo_operands .jmp, fun k s => ⟨_, exec_jmp k s, jumpTarget_toNat k, s.setPc_sameButPc _⟩⟩

end Sys2Proof.Machine

namespace Sys2Proof.Machine

/-! ### The engine's own writes -/

/-- A halt leaves everything but the engine state as it was (R86). -/
theorem State.halt_sameButEngine (s : State) : SameButEngine s s.halt where
  regs := s.halt_readReg
  flag := s.halt_flag
  pc := s.halt_pc
  data _ := by rw [s.halt_dmem]
  prog := s.halt_prog

/-- A fault's entry leaves everything but the engine state as it was (R83, R85). -/
theorem State.takeFault_sameButEngine (s : State) (k : FaultKind) : SameButEngine s (s.takeFault k) where
  regs := s.takeFault_readReg k
  flag := s.takeFault_flag k
  pc := s.takeFault_pc k
  data _ := by rw [s.takeFault_dmem k]
  prog := s.takeFault_prog k

/-- Settles O22: hlt is the halt of the engine, after which no step changes anything. -/
theorem hltEndsTheRunSuccessfully : Obligations.HltEndsTheRunSuccessfully :=
  ⟨decodesTo_operands .hlt, fun s => ⟨s.halt, exec_hlt s, s.halt_runState, s.halt_faultKind, s.halt_sameButEngine,
    rfl, step_of_ne_running (by simp)⟩⟩

/-! ### Relations between instructions -/

/-- Settles O23: the sum and the difference of two words wrap in the same way read signed. -/
theorem addSubWrapAlsoWhenReadSigned : Obligations.AddSubWrapAlsoWhenReadSigned := by
  intro ra rb s
  refine ⟨_, _, exec_add ra rb s, exec_sub ra rb s, ?_, ?_⟩ <;> rw [State.readReg_writeReg_same]
  · exact BitVec.toInt_add _ _
  · exact BitVec.toInt_sub

/-- Two bytes put together are the word high * 256 + low. -/
theorem byte_append_toNat (h l : Byte) : (h ++ l).toNat = h.toNat * 256 + l.toNat := by
  rw [BitVec.toNat_append, ← Nat.shiftLeft_add_eq_or_of_lt l.isLt, Nat.shiftLeft_eq]

/-- Both bytes replaced, the high one first, leave nothing of the word that was there (R117). -/
theorem withLowByte_withHighByte (v : Word) (h l : Byte) : withLowByte (withHighByte v h) l = h ++ l := by
  apply BitVec.eq_of_toNat_eq
  rw [withLowByte_toNat, withHighByte_toNat, byte_append_toNat]
  omega

/-- Both bytes replaced, the low one first, leave nothing of the word that was there (R117). -/
theorem withHighByte_withLowByte (v : Word) (h l : Byte) : withHighByte (withLowByte v l) h = h ++ l := by
  apply BitVec.eq_of_toNat_eq
  have hl := l.isLt
  rw [withHighByte_toNat, withLowByte_toNat, byte_append_toNat]
  omega

/-- ldh, then ldl, is one write of the constant (R117). -/
theorem exec_ldl_after_ldh (ra : RegIdx) (h l : Byte) (s : State) :
    exec (.ldl ra l) (s.writeReg ra (withHighByte (s.readReg ra) h)) = .next (s.writeReg ra (h ++ l)) := by
  rw [exec_ldl, State.readReg_writeReg_same, State.writeReg_writeReg_same, withLowByte_withHighByte]

/-- ldl, then ldh, is the same write (R117). -/
theorem exec_ldh_after_ldl (ra : RegIdx) (h l : Byte) (s : State) :
    exec (.ldh ra h) (s.writeReg ra (withLowByte (s.readReg ra) l)) = .next (s.writeReg ra (h ++ l)) := by
  rw [exec_ldh, State.readReg_writeReg_same, State.writeReg_writeReg_same, withHighByte_withLowByte]

/-- li loads the high byte and the low byte of its constant, by number (R75). -/
theorem pseudoLi_eq_ofNat (ra : RegIdx) (v : Word) :
    pseudoLi ra v = [.ldh ra (BitVec.ofNat 8 (v.toNat / 256)), .ldl ra (BitVec.ofNat 8 v.toNat)] := by
  simp [pseudoLi, BitVec.extractLsb', Nat.shiftRight_eq_div_pow]

/-- nop writes to r0 what r0 holds (R75). -/
theorem exec_pseudoNop (s : State) : exec pseudoNop s = .next s := by
  rw [pseudoNop, exec_mov, State.writeReg_readReg]

/-- Settles O24: in either order the two loads are one write of the constant. -/
theorem byteLoadsBuildAConstantInEitherOrder : Obligations.ByteLoadsBuildAConstantInEitherOrder := by
  refine ⟨fun ra h l s => ?_, pseudoLi_eq_ofNat, exec_pseudoNop⟩
  refine ⟨_, _, _, _, exec_ldh ra h s, exec_ldl_after_ldh ra h l s, exec_ldl ra l s, exec_ldh_after_ldl ra h l s, rfl,
    ?_, s.writeReg_sameButReg ra _⟩
  rw [State.readReg_writeReg_same, byte_append_toNat]

end Sys2Proof.Machine

namespace Sys2Proof.Machine

/-! ### A step of a RUNNING core with an admitted program, by what the fetch and the decoder answer -/

section Step

variable {s : State} (hr : s.runState = .running) (hf : ImageFits s.prog)
include hr hf

/-- A fetch at or past the program's end is a fetch fault (R83). -/
theorem step_of_progLen_le (hlen : s.progLen ≤ s.pc.toNat) : step s = .next (s.takeFault .fetch) := by
  have hread : s.progRead s.pc = none := List.getElem?_eq_none hlen
  simp only [step, cycle, hr, if_pos hf, fetchCycle, hread]

/-- A fetched word that decodes is executed on the advanced state (R82, R84). -/
theorem step_of_decode_ok {ir : Word} {i : Instr} (hread : s.progRead s.pc = some ir) (hdec : decode ir = .ok i) :
    step s = exec i s.advancePc := by
  simp only [step, cycle, hr, if_pos hf, fetchCycle, hread, decodeExecute, hdec]

/-- A fetched word that does not decode is a decode fault on the advanced state (R82, R85). -/
theorem step_of_decode_error {ir : Word} {e : DecodeError} (hread : s.progRead s.pc = some ir)
    (hdec : decode ir = .error e) : step s = .next (s.advancePc.takeFault .decode) := by
  simp only [step, cycle, hr, if_pos hf, fetchCycle, hread, decodeExecute, hdec]

end Step

/-! ### The obligations on the cycle -/

/-- Settles O32, by the decoder's two answers for a fetched word. -/
theorem stepRunsTheDecodedInstruction : Obligations.StepRunsTheDecodedInstruction := fun s _ hr hf hread =>
  ⟨State.advancePc_toNat hf hread, fun _ hdec => step_of_decode_ok hr hf hread hdec,
    fun _ hdec => ⟨_, step_of_decode_error hr hf hread hdec, s.advancePc.takeFault_pc _⟩⟩

/-- Settles O33: the step is a fault's entry on the state as it is. -/
theorem fetchPastTheEndFaults : Obligations.FetchPastTheEndFaults := fun s hr hf hlen =>
  ⟨_, step_of_progLen_le hr hf hlen, s.takeFault_runState _, s.takeFault_faultKind _, s.takeFault_pc _,
    s.takeFault_sameButEngine _, rfl⟩

/-- The index of a decode fault is the one before the pc (R142, D18). -/
theorem State.faultIndex_takeFault_decode (s : State) : (s.takeFault .decode).faultIndex = some (s.pc - 1) := rfl

/-- Settles O34: the step is a fault's entry on the advanced state. -/
theorem undefinedWordFaults : Obligations.UndefinedWordFaults := by
  intro s ir e hr hf hread hdec
  refine ⟨_, step_of_decode_error hr hf hread hdec, rfl, rfl, State.advancePc_toNat hf hread,
    s.advancePc.takeFault_sameButEngine _, ?_⟩
  rw [State.faultIndex_takeFault_decode, State.advancePc_pc, BitVec.add_sub_cancel]

/-- Settles O37: the pc is one past the last word, where a core that is still RUNNING has nothing to fetch. -/
theorem fallingOffTheEndFaultsUnlessHalted : Obligations.FallingOffTheEndFaultsUnlessHalted := by
  intro s ir i hr hf hread hdec hlast hjump
  obtain ⟨t, hexec⟩ := exists_exec_eq_next i s.advancePc
  have hpc : t.pc.toNat = s.prog.length := by
    rw [exec_pc_of_jumpsTo_none (s := s.advancePc) hjump hexec, State.advancePc_toNat hf hread, hlast]
  have hprog : t.prog = s.prog := (exec_prog hexec).trans s.advancePc_prog
  refine ⟨t, (step_of_decode_ok hr hf hread hdec).trans hexec, hpc, fun hi => ?_, ?_⟩
  · have hrun : t.runState = .running := (exec_runState_of_ne_hlt hexec hi).trans hr
    have hlen : t.progLen ≤ t.pc.toNat := by rw [State.progLen, hprog, hpc]
    exact ⟨hrun, _, step_of_progLen_le hrun (hprog ▸ hf) hlen, t.takeFault_runState _, t.takeFault_faultKind _,
      t.takeFault_pc _⟩
  · rintro rfl
    have hhalted := exec_hlt_runState hexec
    exact ⟨hhalted, step_of_ne_running (by simp [hhalted])⟩

/-- A step that takes a jump sets the pc to the target and does nothing else (R123). -/
theorem step_of_jumpsTo {s : State} {ir : Word} {i : Instr} {k : Addr8} (hr : s.runState = .running)
    (hf : ImageFits s.prog) (hread : s.progRead s.pc = some ir) (hdec : decode ir = .ok i)
    (hjump : i.jumpsTo s.flag = some k) : step s = .next (s.setPc (jumpTarget k)) := by
  rw [step_of_decode_ok hr hf hread hdec, exec_of_jumpsTo (s := s.advancePc) hjump]
  rfl

/-- Settles O38: the pc is the target in the next cycle, which finds a word there or faults. -/
theorem takenJumpFetchesNextAtItsTarget : Obligations.TakenJumpFetchesNextAtItsTarget := by
  intro s ir i k hr hf hread hdec hjump
  have hpc : (s.setPc (jumpTarget k)).pc.toNat = k.toNat := jumpTarget_toNat k
  refine ⟨_, step_of_jumpsTo hr hf hread hdec hjump, hr, hpc, s.setPc_prog _, fun hlen => ?_,
    fun ir' i' hread' hdec' => ?_⟩
  · exact ⟨_, step_of_progLen_le hr hf (hlen.trans_eq hpc.symm), rfl, hpc⟩
  · have htarget : (s.setPc (jumpTarget k)).progRead (s.setPc (jumpTarget k)).pc = some ir' := by
      rwa [State.progRead, hpc, State.setPc_prog]
    exact step_of_decode_ok (s := s.setPc (jumpTarget k)) hr hf htarget hdec'

/-- Settles O39, by induction on the number of steps: each step answers the state it started from. -/
theorem selfJumpRunsForEver : Obligations.SelfJumpRunsForEver := by
  intro s ir i k hr hf hread hdec hjump hself n
  have htarget : jumpTarget k = s.pc := BitVec.eq_of_toNat_eq ((jumpTarget_toNat k).trans hself)
  have hstep : step s = .next s := by
    rw [step_of_jumpsTo hr hf hread hdec hjump, htarget]
    rfl
  induction n with
  | zero => rfl
  | succ n ih => exact (run_succ_of_step hstep n).trans ih

/-! ### The result of a run and the status outputs -/

theorem State.result_of_running {s : State} (h : s.runState = .running) : s.result = none := by
  simp only [State.result, h]

theorem State.result_of_halted {s : State} (h : s.runState = .halted) : s.result = some .success := by
  simp only [State.result, h]

theorem State.result_of_fetchFault {s : State} (h : s.runState = .faulted) (hk : s.faultKind = .fetch) :
    s.result = some .fetchFault := by
  simp only [State.result, h, hk]

theorem State.result_of_decodeFault {s : State} (h : s.runState = .faulted) (hk : s.faultKind = .decode) :
    s.result = some .decodeFault := by
  simp only [State.result, h, hk]

/-- Settles O40, by the engine's state and, in a FAULTED core, the kind, which is not NONE there. -/
theorem runResultIsReadOffTheStatus : Obligations.RunResultIsReadOffTheStatus := by
  intro s hagrees
  cases hr : s.runState with
  | running => simp [State.result_of_running hr]
  | halted => simp [State.result_of_halted hr]
  | faulted =>
    cases hk : s.faultKind with
    | none => exact absurd hk (hagrees.mpr hr)
    | fetch => simp [State.result_of_fetchFault hr hk]
    | decode => simp [State.result_of_decodeFault hr hk]

/-- `run_state` drives one of its three codes, 2 for FAULTED (R34, R35). -/
theorem RunState.code_ne_three (r : RunState) : r.code ≠ 3 := by cases r <;> decide

theorem RunState.code_eq_two_iff (r : RunState) : r.code = 2 ↔ r = .faulted := by cases r <;> decide

/-- `fault_kind` drives one of its three codes, 0 for NONE (R34, R35). -/
theorem FaultKind.code_ne_three (k : FaultKind) : k.code ≠ 3 := by cases k <;> decide

theorem FaultKind.code_eq_zero_iff (k : FaultKind) : k.code = 0 ↔ k = .none := by cases k <;> decide

/-- Settles O41: 0 and 2 stand for NONE and FAULTED alone, so the codes agree where the states do. -/
theorem statusOutputCodes : Obligations.StatusOutputCodes := by
  refine ⟨rfl, rfl, rfl, rfl, rfl, rfl, fun s => ⟨s.runState.code_ne_three, s.faultKind.code_ne_three, fun h => ?_⟩⟩
  rw [RunState.code_eq_two_iff, ne_eq, FaultKind.code_eq_zero_iff]
  exact h

/-! ### Reset -/

/-- Settles O46: a reset cycle answers the reset state with the program it found. -/
theorem resetCycleRestoresEveryState : Obligations.ResetCycleRestoresEveryState := fun s =>
  ⟨rfl, resetCycle s, rfl, State.reset_readReg, rfl, rfl, State.reset_dmemRead, rfl, rfl, rfl⟩

end Sys2Proof.Machine

namespace Sys2Proof.Machine

/-! ### The canonical Data Store is determined by its words -/

/-- A byte that no cell lists reads as at reset (R44). -/
theorem Memory.readByte_of_forall_ne {m : Memory} {a : Nat} (h : ∀ c ∈ m, c.1 ≠ a) :
    m.readByte a = Config.unwrittenByte := by
  induction m with
  | nil => rfl
  | cons c m ih =>
    rw [List.forall_mem_cons] at h
    simp [Memory.readByte, h.1, ih h.2]

/-- In a list with rising addresses, a listed byte reads as its cell says. -/
theorem Memory.readByte_of_mem {m : Memory} (hm : m.Pairwise fun c d => c.1 < d.1) {c : Host.Cell} (hc : c ∈ m) :
    m.readByte c.1 = c.2 := by
  induction m with
  | nil => cases hc
  | cons d m ih =>
    rw [List.pairwise_cons] at hm
    rcases List.mem_cons.mp hc with rfl | hc
    · simp [Memory.readByte]
    · simp [Memory.readByte, (hm.1 c hc).ne, ih hm.2 hc]

/-- The cells of a canonical list are the bytes that do not read as at reset. -/
theorem Memory.mem_iff_readByte {m : Memory} (hm : m.wf) (c : Host.Cell) :
    c ∈ m ↔ m.readByte c.1 = c.2 ∧ c.2 ≠ Config.unwrittenByte := by
  obtain ⟨hsorted, hcells⟩ := hm
  constructor
  · exact fun hc => ⟨Memory.readByte_of_mem hsorted hc, (hcells c hc).2⟩
  · rintro ⟨hread, hne⟩
    by_contra hc
    have hd : ∀ d ∈ m, d.1 ≠ c.1 := by
      intro d hd haddr
      have hval : d.2 = c.2 := by rw [← Memory.readByte_of_mem hsorted hd, haddr, hread]
      exact hc (Prod.ext haddr hval ▸ hd)
    exact hne (hread.symm.trans (Memory.readByte_of_forall_ne hd))

/-- Two canonical lists that read alike at every byte list the same cells, in the same order. -/
theorem Memory.eq_of_readByte_eq {m m' : Memory} (hm : m.wf) (hm' : m'.wf)
    (h : ∀ b, m.readByte b = m'.readByte b) : m = m' := by
  have : Std.Irrefl fun c d : Host.Cell => c.1 < d.1 := ⟨fun c => lt_irrefl c.1⟩
  have : Std.Antisymm fun c d : Host.Cell => c.1 < d.1 := ⟨fun _ _ hcd hdc => absurd hdc hcd.asymm⟩
  refine hm.1.eq_of_mem_iff hm'.1 fun c => ?_
  rw [Memory.mem_iff_readByte hm, Memory.mem_iff_readByte hm', h]

/-- Outside the 256 words a canonical list reads as at reset (R44). -/
theorem Memory.readByte_of_wf_of_ge {m : Memory} (hm : m.wf) {b : Nat} (hb : 2 * Config.dataWords ≤ b) :
    m.readByte b = Config.unwrittenByte :=
  Memory.readByte_of_forall_ne fun c hc => ((hm.2 c hc).1.trans_le hb).ne

/-- Equal words have equal bytes. -/
theorem Memory.readByte_eq_of_readWord_eq {m m' : Memory} {a : Addr8} (h : m.readWord a = m'.readWord a) :
    m.readByte (lowCell a) = m'.readByte (lowCell a) ∧ m.readByte (highCell a) = m'.readByte (highCell a) := by
  have hword := congrArg BitVec.toNat h
  simp only [Memory.readWord, byte_append_toNat] at hword
  constructor <;> apply BitVec.eq_of_toNat_eq <;> omega

/-- Every byte below 512 is one of the two cells of a data word (R44). -/
theorem exists_cell_of_lt {b : Nat} (hb : b < 2 * Config.dataWords) : ∃ a : Addr8, b = lowCell a ∨ b = highCell a := by
  have hword : b / 2 < 256 := by
    simp only [Config.dataWords] at hb
    omega
  obtain ⟨a, ha⟩ := (lt_256_iff_exists_addr8 _).mp hword
  refine ⟨a, ?_⟩
  simp only [lowCell, highCell, ha]
  omega

/-- Settles O50: equal words are equal bytes, and a canonical list is its bytes. -/
theorem canonicalDataStoreIsItsWords : Obligations.CanonicalDataStoreIsItsWords := by
  intro m m' hm hm' hwords
  refine Memory.eq_of_readByte_eq hm hm' fun b => ?_
  by_cases hb : b < 2 * Config.dataWords
  · obtain ⟨a, rfl | rfl⟩ := exists_cell_of_lt hb
    · exact (Memory.readByte_eq_of_readWord_eq (hwords a)).1
    · exact (Memory.readByte_eq_of_readWord_eq (hwords a)).2
  · rw [Memory.readByte_of_wf_of_ge hm (Nat.not_lt.mp hb), Memory.readByte_of_wf_of_ge hm' (Nat.not_lt.mp hb)]

end Sys2Proof.Machine

namespace Sys2Proof.Machine

/-! ### The hardware blocks, by what the fetch and the decoder answer -/

/-- A pc past the program is out of the program port's range (R43). -/
theorem programPort_of_progLen_le {s : State} (hlen : s.progLen ≤ s.pc.toNat) : (programPort s).pmInRange = false :=
  decide_eq_false (Nat.not_lt.mpr hlen)

/-- A word of the program is in range and is the port's read data (R43). -/
theorem programPort_of_progRead {s : State} {ir : Word} (hread : s.progRead s.pc = some ir) :
    (programPort s).pmInRange = true ∧ (programPort s).pmRdata = ir :=
  ⟨decide_eq_true (State.lt_of_progRead hread), by simp [programPort, hread]⟩

theorem cycleOperation_of_progLen_le {s : State} (hlen : s.progLen ≤ s.pc.toNat) :
    cycleOperation s = .error .fetch := by
  simp [cycleOperation, programPort_of_progLen_le hlen]

theorem cycleOperation_of_decode_error {s : State} {ir : Word} {e : DecodeError}
    (hread : s.progRead s.pc = some ir) (hdec : decode ir = .error e) : cycleOperation s = .error .decode := by
  simp [cycleOperation, programPort_of_progRead hread, hdec]

theorem cycleOperation_of_decode_ok {s : State} {ir : Word} {i : Instr}
    (hread : s.progRead s.pc = some ir) (hdec : decode ir = .ok i) : cycleOperation s = .ok i := by
  simp [cycleOperation, programPort_of_progRead hread, hdec]

/-- A reset cycle drives no enable (R160). -/
theorem cycleControl_of_reset (s : State) : cycleControl true s = idleControl := rfl

/-- Outside RUNNING no enable is driven (R25, R46). -/
theorem cycleControl_of_ne_running {s : State} (hr : s.runState ≠ .running) : cycleControl false s = idleControl := by
  cases h : s.runState with
  | running => exact absurd h hr
  | halted => simp [cycleControl, h]
  | faulted => simp [cycleControl, h]

/-- In a faulting cycle no enable is driven (R70). -/
theorem cycleControl_of_error {s : State} {k : FaultKind} (hop : cycleOperation s = .error k) :
    cycleControl false s = idleControl := by
  simp [cycleControl, hop]

/-- An executing cycle drives the row of R70's table. -/
theorem cycleControl_of_ok {s : State} {i : Instr} (hr : s.runState = .running) (hop : cycleOperation s = .ok i) :
    cycleControl false s = controlOf i s.flag := by
  simp [cycleControl, hr, hop]

/-- What any cycle without reset drives: nothing, or a row of R70's table. -/
theorem cycleControl_cases (s : State) :
    cycleControl false s = idleControl ∨ ∃ i, cycleControl false s = controlOf i s.flag := by
  by_cases hr : s.runState = .running
  · cases hop : cycleOperation s with
    | error k => exact .inl (cycleControl_of_error hop)
    | ok i => exact .inr ⟨i, cycleControl_of_ok hr hop⟩
  · exact .inl (cycleControl_of_ne_running hr)

/-! ### The port enables -/

/-- No row of R70's table drives both data enables. -/
theorem controlOf_dataEnables (i : Instr) (flag : Bool) :
    (controlOf i flag).dmRe.toNat + (controlOf i flag).dmWe.toNat ≤ 1 := by
  cases i <;> simp [controlOf, writeControl, idleControl]

/-- A row of R70's table drives one kind of write, but for je and jmp, which drive none. -/
theorem controlOf_writeEnables (i : Instr) (flag : Bool) :
    (controlOf i flag).rfWe.toNat + (controlOf i flag).flagWe.toNat + (controlOf i flag).dmWe.toNat +
      (controlOf i flag).halt.toNat = if i.opcode = .je ∨ i.opcode = .jmp then 0 else 1 := by
  cases i <;> rfl

/-- A cycle that drives no enable makes no data access (R47). -/
theorem dataAccessCount_of_idle {rst : Bool} {s : State} (h : cycleControl rst s = idleControl) :
    dataAccessCount rst s = 0 := by
  simp only [dataAccessCount, dataPort, h]
  rfl

/-- A cycle makes at most one data access (R47). -/
theorem dataAccessCount_le_one (s : State) : dataAccessCount false s ≤ 1 := by
  obtain hidle | ⟨i, hrow⟩ := cycleControl_cases s
  · rw [dataAccessCount_of_idle hidle]
    exact Nat.zero_le 1
  · simp only [dataAccessCount, dataPort, hrow]
    exact controlOf_dataEnables i s.flag

/-- Settles O52, clause by clause from the control outputs of the cycle. -/
theorem portEnablesAreExclusive : Obligations.PortEnablesAreExclusive := by
  intro s
  have hreset := cycleControl_of_reset s
  refine ⟨⟨hreset, rfl, dataAccessCount_of_idle hreset, congrArg Control.rfWe hreset⟩, fun hr => ?_,
    fun _ => cycleControl_of_error, dataAccessCount_le_one s, fun i hr hop => ?_⟩
  · have hidle := cycleControl_of_ne_running hr
    exact ⟨hidle, if_neg fun h => hr h.2, dataAccessCount_of_idle hidle⟩
  · refine ⟨if_pos ⟨rfl, hr⟩, ?_⟩
    rw [cycleControl_of_ok hr hop]
    exact controlOf_writeEnables i s.flag

/-! ### The datapath's commit -/

/-- Outside RUNNING the datapath changes nothing (R81). -/
theorem datapathCommit_of_ne_running {s : State} (hr : s.runState ≠ .running) : datapathCommit s = s := by
  cases h : s.runState with
  | running => exact absurd h hr
  | halted => simp only [datapathCommit, h]
  | faulted => simp only [datapathCommit, h]

/-- A fetch fault commits the engine state alone (R83). -/
theorem datapathCommit_of_progLen_le {s : State} (hr : s.runState = .running) (hlen : s.progLen ≤ s.pc.toNat) :
    datapathCommit s = s.takeFault .fetch := by
  have hop := cycleOperation_of_progLen_le hlen
  simp [datapathCommit, hr, nextPc, programPort_of_progLen_le hlen, hop, regFilePorts, dataPort,
    cycleControl_of_error hop, idleControl, State.takeFault]

/-- A decode fault commits the advanced pc and the engine state (R85). -/
theorem datapathCommit_of_decode_error {s : State} {ir : Word} {e : DecodeError} (hr : s.runState = .running)
    (hread : s.progRead s.pc = some ir) (hdec : decode ir = .error e) :
    datapathCommit s = s.advancePc.takeFault .decode := by
  have hop := cycleOperation_of_decode_error hread hdec
  simp [datapathCommit, hr, nextPc, programPort_of_progRead hread, hop, regFilePorts, dataPort,
    cycleControl_of_error hop, idleControl, State.takeFault, State.advancePc, State.setPc]

/-- An executing cycle commits what the instruction does to the advanced state (R80, R84). -/
theorem exec_eq_datapathCommit {s : State} {ir : Word} {o : Opcode} (hr : s.runState = .running)
    (hread : s.progRead s.pc = some ir) (hsel : fieldSel ir = o.selector) :
    exec (operands o ir) s.advancePc = .next (datapathCommit s) := by
  obtain ⟨hin, hdata⟩ := programPort_of_progRead hread
  have hop := cycleOperation_of_decode_ok hread (decode_of_selector hsel)
  simp only [datapathCommit, hr, nextPc, hin, hdata, hop, regFilePorts, dataPort, cycleControl_of_ok hr hop]
  obtain ⟨x, pc, flag, dmem, prog, runState, faultKind⟩ := s
  cases hr
  cases o with
  | je => cases flag <;> rfl
  | _ => rfl

/-- Settles O51: the step and the datapath agree for each answer of the fetch and of the decoder. -/
theorem datapathMakesTheSameCycle : Obligations.DatapathMakesTheSameCycle := by
  refine fun s => ⟨fun hf => ?_, rfl⟩
  change step s = .next (datapathCommit s)
  by_cases hr : s.runState = .running
  · cases hread : s.progRead s.pc with
    | none =>
      have hlen : s.progLen ≤ s.pc.toNat := List.getElem?_eq_none_iff.mp hread
      rw [step_of_progLen_le hr hf hlen, datapathCommit_of_progLen_le hr hlen]
    | some ir =>
      obtain ⟨o, hsel, hdec⟩ | ⟨-, hdec⟩ := decode_cases ir
      · rw [step_of_decode_ok hr hf hread hdec, exec_eq_datapathCommit hr hread hsel]
      · rw [step_of_decode_error hr hf hread hdec, datapathCommit_of_decode_error hr hread hdec]
  · rw [step_of_ne_running hr, datapathCommit_of_ne_running hr]

end Sys2Proof.Machine
